-- ==== Sys2Proof/Word.lean ====
section
/-! DEFINITION. The widths of the block's values (spec/00_scope.md R7 and section 6): all are unsigned bit vectors. -/

namespace Sys2Proof

/-- A byte: an unsigned 8-bit value (00_scope.md section 6). Also the type of a `HANDLE` (R7: HANDLEW = 8) and of
an opcode. -/
abbrev Byte := BitVec 8

/-- A word: an unsigned 32-bit value (R7: WORD = 32). Also the type of `OFFSET` and `LEN` (R7: LENW = 32). `+` on it
is the `+32` of the spec. -/
abbrev Word := BitVec 32

/-- The 64-bit byte counter of an engine (R7: CNTW = 64). `+` on it is the `+64` of the spec. -/
abbrev Count := BitVec 64

end Sys2Proof
end

