-- ==== Sys2Proof/Machine/Bytes.lean ====
section
/-! DEFINITION. Byte order, decided once: everything is big-endian and cannot be switched (spec/20_memory.md R56;
00_scope.md section 6, "Big-endian packing"). -/

namespace Sys2Proof

/-- `BE32(w)`: bits 31:24, 23:16, 15:8, 7:0. -/
def be32 (w : Word) : List Byte :=
  [w.extractLsb' 24 8, w.extractLsb' 16 8, w.extractLsb' 8 8, w.extractLsb' 0 8]

/-- `BE64(v)`: the eight bytes, most significant first. -/
def be64 (v : Count) : List Byte :=
  [v.extractLsb' 56 8, v.extractLsb' 48 8, v.extractLsb' 40 8, v.extractLsb' 32 8,
   v.extractLsb' 24 8, v.extractLsb' 16 8, v.extractLsb' 8 8, v.extractLsb' 0 8]

/-- `UNBE32(s)` of the four bytes of `s`: `s[0]*2^24 + s[1]*2^16 + s[2]*2^8 + s[3]` (the law `unbe32_toNat`), which is
`s[0]` in bits 31:24 down to `s[3]` in bits 7:0. -/
def unbe32 (s0 s1 s2 s3 : Byte) : Word := s0 ++ s1 ++ s2 ++ s3

end Sys2Proof
end

