-- ==== Sys2Proof/Config.lean ====
section
/-! DEFINITION. The implementation parameters of the block (spec/00_scope.md R7). `CHUNK`, the one the spec leaves
open (D20), is a field of the state (log entry 6); only its default stands here. The model needs no free value: every
rule reads a register only while its unit is active (10_state.md R36, log entry 1). -/

namespace Sys2Proof.Config

/-- R7 `BLOCK`: block size in bytes. -/
abbrev blockBytes : Nat := 64

/-- R7 `DIGEST`: digest and tag size in bytes. -/
abbrev digestBytes : Nat := 32

/-- R7 `ROUNDS`: rounds per compression. -/
abbrev rounds : Nat := 64

/-- R7 `IPAD_BYTE`. -/
abbrev ipadByte : Byte := 0x36

/-- R7 `OPAD_BYTE`. -/
abbrev opadByte : Byte := 0x5c

/-- R7 `CHUNK`: the default of the parameter (log entry 6). -/
abbrev chunkDefault : Nat := 16

/-- One more than the largest `LEN` (R72: every value from 0 to `2^32 - 1` is legal). -/
abbrev lenLimit : Nat := 2 ^ 32

end Sys2Proof.Config
end

