-- ==== Sys2Proof/Syntax.lean ====
section
/-! DEFINITION. The instruction type: one constructor per row of spec/opcode_table.json (30_encoding.md R76), with the
operands that R75 says each operation receives. -/

namespace Sys2Proof

/-- The eight commands (30_encoding.md R76). -/
inductive Instr where
  /-- `SHA.START` (41_hash_engine.md R116): no operand. -/
  | shaStart
  /-- `SHA.UPDATE` (R117): the payload; its length is the `LEN` field. -/
  | shaUpdate (payload : List Byte)
  /-- `SHA.UPDATE_SEG` (43_segmented_update.md R153): handle, offset and length of a segmented range. -/
  | shaUpdateSeg (handle : Byte) (offset len : Word)
  /-- `SHA.FINISH` (R118): no operand. -/
  | shaFinish
  /-- `HMAC.START` (42_hmac.md R135): the payload is the key. -/
  | hmacStart (key : List Byte)
  /-- `HMAC.UPDATE` (R136): the payload. -/
  | hmacUpdate (payload : List Byte)
  /-- `HMAC.UPDATE_SEG` (R154): handle, offset and length of a segmented range. -/
  | hmacUpdateSeg (handle : Byte) (offset len : Word)
  /-- `HMAC.FINISH` (R137): no operand. -/
  | hmacFinish
deriving DecidableEq, Repr

end Sys2Proof
end

