-- ==== Sys2Proof/Machine/State.lean ====
section
/-! DEFINITION. The state of the block (spec/10_state.md), as plain data, and the state after reset (R35). -/

namespace Sys2Proof.Machine

/-- Eight 32-bit words: the digest state `H[0..7]` of an engine (R21), or the working variables `a` to `h` of a
compression (40_compress.md R96, R97), in that order. -/
structure Words8 where
  w0 : Word
  w1 : Word
  w2 : Word
  w3 : Word
  w4 : Word
  w5 : Word
  w6 : Word
  w7 : Word
deriving DecidableEq, Repr

/-- The registers of an active engine (R20): `e.H`, `e.buf` and `e.total`. Only the first `e.n` bytes of `e.buf` are
architectural, so `buf` is a sequence of length `e.n` (R22), and `e.n` is its length. -/
structure EngineRegs where
  H : Words8
  buf : List Byte
  total : Count
deriving DecidableEq, Repr

/-- An engine (R20). `e.active` (R25) is which constructor it is: an inactive engine has no fields, because a model
must not give the unspecified contents a value a proof could use (R36, log entry 1). -/
inductive Engine where
  /-- `e.active = 0`: after reset and after Finish. -/
  | idle
  /-- `e.active = 1`: from Start to Finish. -/
  | running (r : EngineRegs)
deriving DecidableEq, Repr

/-- The register `HMAC.opad` with the flag `HMAC.active` (R27, R28): 64 bytes while the unit is active, and no value
while it is not (R36, log entry 1). -/
inductive OuterPad where
  /-- `HMAC.active = 0`. -/
  | idle
  /-- `HMAC.active = 1`: the retained outer pad. -/
  | retained (opad : List Byte)
deriving DecidableEq, Repr

/-- The unit `HMAC` (R27): its two engines, and the pad register with the unit's flag. -/
structure HmacUnit where
  inner : Engine
  outer : Engine
  pad : OuterPad
deriving DecidableEq, Repr

/-- One read request on the SEG port: handle, byte offset, number of bytes (20_memory.md R52). `OFFSET` has 32 bits
(R51), but the running offset of 43_segmented_update.md R152 may pass `2^32` in a longer buffer; that it is a natural
number there is the model's choice (DESIGN CHOICE, log entry 16). -/
structure SegRequest where
  handle : Byte
  offset : Nat
  count : Nat
deriving DecidableEq, Repr

/-- What the SEG port sees (20_memory.md R50): a length query (R53) or a read request (R52). -/
inductive SegEvent where
  | query (handle : Byte)
  | read (r : SegRequest)
deriving DecidableEq, Repr

/-- The SEG space (20_memory.md R51): the content of each segmented buffer by handle, held as a list with handles
strictly rising and no empty content listed. An unlisted handle is the empty buffer (log entry 5). -/
abbrev SegSpace := List (Nat × List Byte)

/-- The fault causes of 60_exceptions.md R161. -/
inductive FaultCause where
  | illegalCmd
  | notStarted
  | segRange
deriving DecidableEq, Repr

/-- Why a step has no next state. None of these is a fault of the block (those are next states with the latch set,
60_exceptions.md R163); each is a state the spec gives no successor. -/
inductive Fault where
  /-- Raised by `step` when `FAULT = 1` and RESET is not asserted: the halted state has no successor
  (60_exceptions.md R166). Safe. -/
  | halted
  /-- Raised by `step` when every byte on CMD has been consumed: the block waits for the host; the normal end of a run
  (70_reset_and_hazards.md R196 (a)). Safe. -/
  | endOfStream
  /-- Raised by `step` when the bytes left on CMD start a command but do not complete it: the block waits
  (30_encoding.md R79, R196 (b), U12). Safe. -/
  | incompleteCommand
  /-- Raised by the two segmented Updates when a read request falls outside the precondition of 20_memory.md R52, where
  the spec does not define the port's answer. It needs a state whose `chunk` is 0, which R7 excludes (U9, log entry 8).
  Safe. -/
  | segReadOutside
deriving DecidableEq, Repr

/-- Why an instruction has no meaning. No instruction of this model is refused. -/
inductive Refusal where
  /-- Raised by an arm of `exec` for an instruction without a meaning. Safe. -/
  | notModelled (mnemonic : String)
deriving DecidableEq, Repr

/-- The state of the block and of what stands at its ports. -/
structure State where
  /-- Engine `SHA` (R20). -/
  sha : Engine
  /-- Unit `HMAC` (R27). -/
  hmac : HmacUnit
  /-- The bit `FAULT` (R30). -/
  faultBit : Bool
  /-- The register `CAUSE` (R30). -/
  cause : BitVec 3
  /-- The register `FINFO` (R30). -/
  finfo : Byte
  /-- The position on CMD: index of the next unconsumed byte (R31). -/
  pc : Nat
  /-- The CMD bytes that have arrived since the last reset, consumed ones included (R31, R54, log entry 2). -/
  cmd : List Byte
  /-- The output history: the 32-byte records emitted on DOUT, oldest first (R34). -/
  dout : List (List Byte)
  /-- The segmented buffers behind the SEG port (20_memory.md R51). -/
  seg : SegSpace
  /-- The parameter `CHUNK` (00_scope.md R7, log entry 6). -/
  chunk : Nat
  /-- Whether the host asserts RESET (20_memory.md R50, log entry 4). -/
  resetLine : Bool
  /-- The model's own record of the SEG port, oldest first (log entry 7). -/
  segTrace : List SegEvent
deriving DecidableEq, Repr

/-- The state after reset (R35), with nothing on CMD, an empty output history, every segmented buffer empty and the
default `CHUNK`. -/
def State.reset : State where
  sha := .idle
  hmac := ⟨.idle, .idle, .idle⟩
  faultBit := false
  cause := 0
  finfo := 0
  pc := 0
  cmd := []
  dout := []
  seg := []
  chunk := Config.chunkDefault
  resetLine := false
  segTrace := []

end Sys2Proof.Machine
end

