-- ==== Sys2Proof/Machine/Compress.lean ====
section
/-! DEFINITION. The compression function (spec/40_compress.md R90 to R99). The constants and formulas are the spec's
numbered rules, which the spec itself supplies from general knowledge (log entry 13). -/

namespace Sys2Proof.Machine

/-- R90: the initial hash value `IV[0..7]`. -/
def iv : Words8 :=
  ⟨0x6a09e667, 0xbb67ae85, 0x3c6ef372, 0xa54ff53a, 0x510e527f, 0x9b05688c, 0x1f83d9ab, 0x5be0cd19⟩

/-- R91: the round constants `K[0..63]`. -/
def roundConstants : List Word :=
  [0x428a2f98, 0x71374491, 0xb5c0fbcf, 0xe9b5dba5, 0x3956c25b, 0x59f111f1, 0x923f82a4, 0xab1c5ed5] ++
  [0xd807aa98, 0x12835b01, 0x243185be, 0x550c7dc3, 0x72be5d74, 0x80deb1fe, 0x9bdc06a7, 0xc19bf174] ++
  [0xe49b69c1, 0xefbe4786, 0x0fc19dc6, 0x240ca1cc, 0x2de92c6f, 0x4a7484aa, 0x5cb0a9dc, 0x76f988da] ++
  [0x983e5152, 0xa831c66d, 0xb00327c8, 0xbf597fc7, 0xc6e00bf3, 0xd5a79147, 0x06ca6351, 0x14292967] ++
  [0x27b70a85, 0x2e1b2138, 0x4d2c6dfc, 0x53380d13, 0x650a7354, 0x766a0abb, 0x81c2c92e, 0x92722c85] ++
  [0xa2bfe8a1, 0xa81a664b, 0xc24b8b70, 0xc76c51a3, 0xd192e819, 0xd6990624, 0xf40e3585, 0x106aa070] ++
  [0x19a4c116, 0x1e376c08, 0x2748774c, 0x34b0bcb5, 0x391c0cb3, 0x4ed8aa4a, 0x5b9cca4f, 0x682e6ff3] ++
  [0x748f82ee, 0x78a5636f, 0x84c87814, 0x8cc70208, 0x90befffa, 0xa4506ceb, 0xbef9a3f7, 0xc67178f2]

/-- `SHR(x, n)` (00_scope.md section 6). -/
def shr (x : Word) (n : Nat) : Word := x >>> n

/-- `ROTR(x, n)` for `0 < n < 32` (00_scope.md section 6). -/
def rotr (x : Word) (n : Nat) : Word := shr x n ||| x <<< (32 - n)

/-! R92: the six functions. -/

def ch (x y z : Word) : Word := (x &&& y) ^^^ (~~~x &&& z)
def maj (x y z : Word) : Word := (x &&& y) ^^^ (x &&& z) ^^^ (y &&& z)
def bsig0 (x : Word) : Word := rotr x 2 ^^^ rotr x 13 ^^^ rotr x 22
def bsig1 (x : Word) : Word := rotr x 6 ^^^ rotr x 11 ^^^ rotr x 25
def ssig0 (x : Word) : Word := rotr x 7 ^^^ rotr x 18 ^^^ shr x 3
def ssig1 (x : Word) : Word := rotr x 17 ^^^ rotr x 19 ^^^ shr x 10

/-- R94: the words of a block, four bytes at a time, big-endian. -/
def blockWords : List Byte → List Word
  | b0 :: b1 :: b2 :: b3 :: rest => unbe32 b0 b1 b2 b3 :: blockWords rest
  | _ => []

/-- R95: the schedule word `W[t]` from the words before it. -/
def scheduleWord (W : List Word) (t : Nat) : Word :=
  ssig1 (W.getD (t - 2) 0) + W.getD (t - 7) 0 + ssig0 (W.getD (t - 15) 0) + W.getD (t - 16) 0

/-- R94, R95: the message schedule `W[0..63]` of a block. -/
def schedule (B : List Byte) : List Word :=
  (List.range' 16 (Config.rounds - 16)).foldl (fun W t => W ++ [scheduleWord W t]) (blockWords B)

/-- R96: one round, on the working words `a` to `h`, with its constant and its schedule word. -/
def round (v : Words8) (k w : Word) : Words8 :=
  let t1 := v.w7 + bsig1 v.w4 + ch v.w4 v.w5 v.w6 + k + w
  let t2 := bsig0 v.w0 + maj v.w0 v.w1 v.w2
  ⟨t1 + t2, v.w0, v.w1, v.w2, v.w3 + t1, v.w4, v.w5, v.w6⟩

/-- The feed-forward of R97: word-by-word addition modulo `2^32`. -/
def Words8.add (H v : Words8) : Words8 :=
  ⟨H.w0 + v.w0, H.w1 + v.w1, H.w2 + v.w2, H.w3 + v.w3, H.w4 + v.w4, H.w5 + v.w5, H.w6 + v.w6, H.w7 + v.w7⟩

/-- R97: `Compress(H, B)` for a 64-byte block `B`. -/
def compress (H : Words8) (B : List Byte) : Words8 :=
  H.add ((roundConstants.zip (schedule B)).foldl (fun v kw => round v kw.1 kw.2) H)

/-- 41_hash_engine.md R115: `Digest(H)`, the eight words as big-endian bytes, `H[0]` first. -/
def digest (H : Words8) : List Byte :=
  be32 H.w0 ++ be32 H.w1 ++ be32 H.w2 ++ be32 H.w3 ++ be32 H.w4 ++ be32 H.w5 ++ be32 H.w6 ++ be32 H.w7

end Sys2Proof.Machine
end

