-- ==== Sys2Proof/Machine/Flags.lean ====
section
/-! DEFINITION. The flags and the read-only views on them (spec/10_state.md R23, R25, R28, R30, R32). The block has no
condition codes: no arithmetic operation sets a flag (R32, 40_compress.md R93). -/

namespace Sys2Proof.Machine

/-- `e.active` (R25). -/
def Engine.active : Engine → Bool
  | .idle => false
  | .running _ => true

/-- `e.n`, the number of buffered bytes (R22, R23). -/
def EngineRegs.n (r : EngineRegs) : Nat := r.buf.length

/-- `HMAC.active` (R28). -/
def HmacUnit.active (u : HmacUnit) : Bool :=
  match u.pad with
  | .idle => false
  | .retained _ => true

/-- The code latched in `CAUSE` (60_exceptions.md R161). -/
def FaultCause.code : FaultCause → BitVec 3
  | .illegalCmd => 1
  | .notStarted => 2
  | .segRange => 3

/-- The STATUS port (R30): bits 7:6 zero, 5:3 `CAUSE`, 2 `FAULT`, 1 `HMAC_ACTIVE`, 0 `SHA_ACTIVE`. -/
def State.status (s : State) : Byte :=
  (0 : BitVec 2) ++ s.cause ++ BitVec.ofBool s.faultBit ++ BitVec.ofBool s.hmac.active ++ BitVec.ofBool s.sha.active

/-- The `FAULT` output line, a level copy of the bit (60_exceptions.md R167). -/
def State.faultLine (s : State) : Bool := s.faultBit

/-- The FINFO port (R30). -/
def State.finfoPort (s : State) : Byte := s.finfo

end Sys2Proof.Machine
end

