-- ==== Sys2Proof/Machine/Engine.lean ====
section
/-! DEFINITION. The engine procedures Start, Update and Finish, the same for every engine (spec/41_hash_engine.md R110
to R115). The procedures on the registers of an active engine are total; `Engine.update` and `Engine.finish` put the
check of `e.active` in front of them and answer none where the rule raises `Fault(NOT_STARTED)`. -/

namespace Sys2Proof.Machine

/-- R110: `e.Start()` reads no state. -/
def EngineRegs.start : EngineRegs := ⟨iv, [], 0⟩

/-- One pass of the loop of R111: the byte goes into the buffer, and the 64th byte triggers a compression. -/
def EngineRegs.absorbByte (r : EngineRegs) (b : Byte) : EngineRegs :=
  let buf := r.buf ++ [b]
  if buf.length = Config.blockBytes then { r with H := compress r.H buf, buf := [] } else { r with buf := buf }

/-- R111: `e.Update(s)` on an active engine: the loop over the bytes, then `e.total +64 |s|`. -/
def EngineRegs.absorb (r : EngineRegs) (s : List Byte) : EngineRegs :=
  let r' := s.foldl EngineRegs.absorbByte r
  { r' with total := r.total + BitVec.ofNat 64 s.length }

/-- R113: `Pad(n, total)`. For `n` from 0 to 63, `(119 - n) mod 64` is the rule's `(55 - n) mod 64`. -/
def padding (n : Nat) (total : Count) : List Byte :=
  (0x80 : Byte) :: List.replicate ((119 - n) % 64) 0 ++ be64 (8 * total)

/-- R114: `e.Finish()` on an active engine: one compression, or two when the padded tail is 128 bytes, then the digest
(R115). -/
def EngineRegs.finish (r : EngineRegs) : List Byte :=
  let T := r.buf ++ padding r.n r.total
  let H1 := compress r.H (T.take 64)
  digest (if T.length = 128 then compress H1 (T.drop 64) else H1)

/-- R110 on an engine: it becomes active, whatever it held. -/
def Engine.start : Engine := .running EngineRegs.start

/-- R111 with its check; none is `Fault(NOT_STARTED)`. -/
def Engine.update : Engine → List Byte → Option Engine
  | .idle, _ => none
  | .running r, s => some (.running (r.absorb s))

/-- R114 with its check: the digest, and the engine inactive; none is `Fault(NOT_STARTED)`. -/
def Engine.finish : Engine → Option (List Byte × Engine)
  | .idle => none
  | .running r => some (r.finish, .idle)

end Sys2Proof.Machine
end

