-- ==== Sys2Proof/Machine/HmacUnit.lean ====
section
/-! DEFINITION. The procedures of the HMAC unit (spec/42_hmac.md R130 to R134). -/

namespace Sys2Proof.Machine

/-- One Start, Update, Finish pass of an engine over a byte sequence (R130's `SHA256`). -/
def hashPass (s : List Byte) : List Byte := (EngineRegs.start.absorb s).finish

/-- R130: the key normalised to 64 bytes. A key of exactly 64 bytes is not hashed. -/
def normKey (key : List Byte) : List Byte :=
  let k0 := if key.length > 64 then hashPass key else key
  k0 ++ List.replicate (64 - k0.length) 0

/-- R131: a pad is the normalised key XORed with a repeated byte. -/
def xorPad (kn : List Byte) (b : Byte) : List Byte := kn.map (· ^^^ b)

/-- R132: `HMAC.Start(key)`: INNER is started (after the pass of R130, if any, which leaves nothing behind, log entry
11) and fed the inner pad; the outer pad is retained. It does not touch OUTER. -/
def HmacUnit.start (u : HmacUnit) (key : List Byte) : HmacUnit :=
  let kn := normKey key
  { u with
    inner := .running (EngineRegs.start.absorb (xorPad kn Config.ipadByte))
    pad := .retained (xorPad kn Config.opadByte) }

/-- R133: `HMAC.Update(s)`; none is `Fault(NOT_STARTED)`, of the unit or of INNER (R139: the latter never happens). -/
def HmacUnit.update (u : HmacUnit) (s : List Byte) : Option HmacUnit :=
  match u.pad with
  | .idle => none
  | .retained _ =>
    match u.inner.update s with
    | none => none
    | some e => some { u with inner := e }

/-- R134: `HMAC.Finish()`: the tag, and the unit with both engines inactive and no pad; none is `Fault(NOT_STARTED)`. -/
def HmacUnit.finish (u : HmacUnit) : Option (List Byte × HmacUnit) :=
  match u.pad with
  | .idle => none
  | .retained opad =>
    match u.inner.finish with
    | none => none
    | some (d, inner) =>
      let outer := (EngineRegs.start.absorb opad).absorb d
      some (outer.finish, { inner := inner, outer := .idle, pad := .idle })

end Sys2Proof.Machine
end

