-- ==== Sys2Proof/WellFormed.lean ====
section
/-! DEFINITION. Which instructions have an encoding: a payload's length must fit the 32-bit `LEN` field (30_encoding.md
R72, R85). Every value of every other field is legal (R78). -/

namespace Sys2Proof

/-- A byte span fits one format `P` command (R72). -/
def payloadFits (p : List Byte) : Bool := p.length < Config.lenLimit

/-- The check that an instruction can be encoded. -/
def Instr.wf : Instr → Bool
  | .shaStart => true
  | .shaUpdate p => payloadFits p
  | .shaUpdateSeg _ _ _ => true
  | .shaFinish => true
  | .hmacStart key => payloadFits key
  | .hmacUpdate p => payloadFits p
  | .hmacUpdateSeg _ _ _ => true
  | .hmacFinish => true

end Sys2Proof
end

