-- ==== Sys2Proof/Decode.lean ====
section
/-! DEFINITION. Decoding and encoding of commands (spec/30_encoding.md R70 to R79, spec/opcode_table.json). The decoder
is total on any byte list: it answers a command with the bytes that follow it, or says by name why there is none. -/

namespace Sys2Proof

/-! The eight opcode bytes of R76. -/

abbrev opShaStart : Byte := 0x10
abbrev opShaUpdate : Byte := 0x11
abbrev opShaUpdateSeg : Byte := 0x12
abbrev opShaFinish : Byte := 0x13
abbrev opHmacStart : Byte := 0x20
abbrev opHmacUpdate : Byte := 0x21
abbrev opHmacUpdateSeg : Byte := 0x22
abbrev opHmacFinish : Byte := 0x23

/-- The three formats of R70. -/
inductive Format where
  | formatN
  | formatP
  | formatS
deriving DecidableEq, Repr

/-- One row of the opcode map of R76. -/
structure OpcodeRow where
  opcode : Byte
  mnemonic : String
  format : Format
deriving DecidableEq, Repr

/-- The opcode map of R76, row for row. -/
def opcodeMap : List OpcodeRow :=
  [⟨opShaStart, "SHA.START", .formatN⟩,
   ⟨opShaUpdate, "SHA.UPDATE", .formatP⟩,
   ⟨opShaUpdateSeg, "SHA.UPDATE_SEG", .formatS⟩,
   ⟨opShaFinish, "SHA.FINISH", .formatN⟩,
   ⟨opHmacStart, "HMAC.START", .formatP⟩,
   ⟨opHmacUpdate, "HMAC.UPDATE", .formatP⟩,
   ⟨opHmacUpdateSeg, "HMAC.UPDATE_SEG", .formatS⟩,
   ⟨opHmacFinish, "HMAC.FINISH", .formatN⟩]

/-- What the decoder reads at a command boundary. -/
inductive Decoded where
  /-- A complete command, and the bytes after its last byte (R74). -/
  | command (i : Instr) (rest : List Byte)
  /-- The opcode byte is none of the eight: R77, whatever follows it. -/
  | illegal (op : Byte)
  /-- A legal opcode byte whose command has not arrived in full (R79). -/
  | incomplete
  /-- No byte at the command boundary (R196 (a)). -/
  | endOfStream
deriving DecidableEq, Repr

/-- The bytes after the opcode of a format `P` command (R72, R75): four bytes of `LEN`, then `LEN` payload bytes. -/
def decodePayload (mk : List Byte → Instr) : List Byte → Decoded
  | l0 :: l1 :: l2 :: l3 :: rest =>
    let len := (unbe32 l0 l1 l2 l3).toNat
    if rest.length < len then .incomplete else .command (mk (rest.take len)) (rest.drop len)
  | _ => .incomplete

/-- The bytes after the opcode of a format `S` command (R73, R75): `HANDLE`, four bytes of `OFFSET`, four of `LEN`. -/
def decodeRange (mk : Byte → Word → Word → Instr) : List Byte → Decoded
  | h :: o0 :: o1 :: o2 :: o3 :: l0 :: l1 :: l2 :: l3 :: rest =>
    .command (mk h (unbe32 o0 o1 o2 o3) (unbe32 l0 l1 l2 l3)) rest
  | _ => .incomplete

/-- The decoder: whole-byte compare on the opcode (R76), then the format's fields. -/
def decode : List Byte → Decoded
  | [] => .endOfStream
  | op :: rest =>
    if op = opShaStart then .command .shaStart rest
    else if op = opShaUpdate then decodePayload .shaUpdate rest
    else if op = opShaUpdateSeg then decodeRange .shaUpdateSeg rest
    else if op = opShaFinish then .command .shaFinish rest
    else if op = opHmacStart then decodePayload .hmacStart rest
    else if op = opHmacUpdate then decodePayload .hmacUpdate rest
    else if op = opHmacUpdateSeg then decodeRange .hmacUpdateSeg rest
    else if op = opHmacFinish then .command .hmacFinish rest
    else .illegal op

/-! The encoder, from the same tables. -/

/-- The opcode byte of a command (R76); what `FINFO` records when it faults (60_exceptions.md R161). -/
def Instr.opcode : Instr → Byte
  | .shaStart => opShaStart
  | .shaUpdate _ => opShaUpdate
  | .shaUpdateSeg _ _ _ => opShaUpdateSeg
  | .shaFinish => opShaFinish
  | .hmacStart _ => opHmacStart
  | .hmacUpdate _ => opHmacUpdate
  | .hmacUpdateSeg _ _ _ => opHmacUpdateSeg
  | .hmacFinish => opHmacFinish

/-- A command's length in bytes (R74): 1, `5 + LEN` or 10. -/
def Instr.size : Instr → Nat
  | .shaStart => 1
  | .shaUpdate p => 5 + p.length
  | .shaUpdateSeg _ _ _ => 10
  | .shaFinish => 1
  | .hmacStart key => 5 + key.length
  | .hmacUpdate p => 5 + p.length
  | .hmacUpdateSeg _ _ _ => 10
  | .hmacFinish => 1

/-- Format `P` (R72). -/
def encodePayload (op : Byte) (p : List Byte) : List Byte :=
  op :: be32 (BitVec.ofNat 32 p.length) ++ p

/-- Format `S` (R73). -/
def encodeRange (op h : Byte) (offset len : Word) : List Byte :=
  op :: h :: be32 offset ++ be32 len

/-- The bytes of a command, first byte first (R71 to R73, R76). -/
def encode : Instr → List Byte
  | .shaStart => [opShaStart]
  | .shaUpdate p => encodePayload opShaUpdate p
  | .shaUpdateSeg h offset len => encodeRange opShaUpdateSeg h offset len
  | .shaFinish => [opShaFinish]
  | .hmacStart key => encodePayload opHmacStart key
  | .hmacUpdate p => encodePayload opHmacUpdate p
  | .hmacUpdateSeg h offset len => encodeRange opHmacUpdateSeg h offset len
  | .hmacFinish => [opHmacFinish]

/-! Instructions given by the bits of spec/opcode_table.json. -/

/-- The length of the command that starts these bytes, known from its first bytes alone (R74); none for an illegal
opcode byte or while the length is not known yet. -/
def commandLength (bs : List Byte) : Option Nat :=
  match bs with
  | [] => none
  | op :: rest =>
    match (opcodeMap.find? fun row => row.opcode == op).map OpcodeRow.format with
    | none => none
    | some .formatN => some 1
    | some .formatS => some 10
    | some .formatP =>
      match rest with
      | l0 :: l1 :: l2 :: l3 :: _ => some (5 + (unbe32 l0 l1 l2 l3).toNat)
      | _ => none

/-- The command whose first `nbits` bits are `w`, numbered as the table numbers them (byte `k` is bits
`8k+7 : 8k`), every later byte 0: the bytes CMD carries for it, cut at the command's own length (log entry 12). -/
def tableBytes (nbits w : Nat) : List Byte :=
  let given := (List.range ((nbits + 7) / 8)).map fun k => BitVec.ofNat 8 (w / 2 ^ (8 * k))
  let padded := given ++ List.replicate 10 0
  match commandLength padded with
  | some n => (padded ++ List.replicate (n - padded.length) 0).take n
  | none => given.take 1

/-- The instruction the decoder reads from `tableBytes`. -/
def decodeTableWord (nbits w : Nat) : Option Instr :=
  match decode (tableBytes nbits w) with
  | .command i _ => some i
  | .illegal _ => none
  | .incomplete => none
  | .endOfStream => none

end Sys2Proof
end

