-- ==== Sys2Proof/Machine/Ops.lean ====
section
/-! DEFINITION. The operations every meaning is written with: writing a unit, emitting a record, advancing on CMD,
reading the SEG space, taking a fault, reset, and what the host may do between two steps. -/

namespace Sys2Proof.Machine

/-! ### Registers and ports -/

/-- Write the engine `SHA`. -/
def State.setSha (s : State) (e : Engine) : State := { s with sha := e }

/-- Write the unit `HMAC`. -/
def State.setHmac (s : State) (u : HmacUnit) : State := { s with hmac := u }

/-- `DoutWrite(v)` (20_memory.md R55): deliver one record to the host, appending it to the output history. -/
def State.doutWrite (s : State) (v : List Byte) : State := { s with dout := s.dout ++ [v] }

/-- Move the position on CMD past `n` bytes (10_state.md R31). -/
def State.advance (s : State) (n : Nat) : State := { s with pc := s.pc + n }

/-- Record what the SEG port saw (log entry 7). -/
def State.logSeg (s : State) (evs : List SegEvent) : State := { s with segTrace := s.segTrace ++ evs }

/-! ### The SEG space -/

/-- `Seg(h)` (20_memory.md R51): the content of a segmented buffer. -/
def segContent : SegSpace → Byte → List Byte
  | [], _ => []
  | (k, c) :: m, h => if k = h.toNat then c else segContent m h

/-- `SegLen(h)` (20_memory.md R53). -/
def segLen (m : SegSpace) (h : Byte) : Nat := (segContent m h).length

/-- The byte at `(h, o)`, where there is one (20_memory.md R51, R60). An offset past the 32 bits of R51 is a natural
number like any other (DESIGN CHOICE, log entry 16). -/
def segByte (m : SegSpace) (h : Byte) (o : Nat) : Option Byte := (segContent m h)[o]?

/-- `SegRead(h, o, n)` (20_memory.md R52), defined exactly on its precondition (log entry 8). -/
def segRead (m : SegSpace) (chunk : Nat) (r : SegRequest) : Option (List Byte) :=
  if 1 ≤ r.count ∧ r.count ≤ chunk ∧ r.offset + r.count ≤ segLen m r.handle then
    some (((segContent m r.handle).drop r.offset).take r.count)
  else none

/-- Insert, replace or remove the content listed for a handle, keeping the canonical form of the list. -/
def segPut : SegSpace → Nat → List Byte → SegSpace
  | [], k, c => if c = [] then [] else [(k, c)]
  | (k', c') :: m, k, c =>
    if k < k' then (if c = [] then (k', c') :: m else (k, c) :: (k', c') :: m)
    else if k = k' then (if c = [] then m else (k, c) :: m)
    else (k', c') :: segPut m k c

/-- The canonical form of the SEG space: handles strictly rising and below 256, no empty content listed. -/
def SegSpace.wf (m : SegSpace) : Bool :=
  (m.map Prod.fst).Pairwise (· < ·) && m.all fun kc => kc.1 < 256 && kc.2 ≠ []

/-! ### Completing and faulting -/

/-- How a command that does not fault ends (30_encoding.md R80): `pc` moves past the command. -/
def complete (i : Instr) (s : State) : Host.Outcome State Fault Refusal := .next (s.advance i.size)

/-- `raise Fault(c)` (60_exceptions.md R163): latch the cause and the opcode byte, and nothing else. -/
def State.raiseFault (s : State) (c : FaultCause) (op : Byte) : State :=
  { s with faultBit := true, cause := c.code, finfo := op }

/-- How a command that faults ends: the fault is taken, `pc` stays at the command (60_exceptions.md R164). -/
def trap (c : FaultCause) (i : Instr) (s : State) : Host.Outcome State Fault Refusal :=
  .next (s.raiseFault c i.opcode)

/-! ### Reset -/

/-- The reset event (70_reset_and_hazards.md R190, 10_state.md R35): the units, the latch and the decoder go to their
reset state and received CMD bytes are discarded; the output history, the segmented buffers and `CHUNK` are not
affected (log entry 4). There is no return from a fault but this. -/
def State.applyReset (s : State) : State :=
  { State.reset with dout := s.dout, seg := s.seg, chunk := s.chunk, segTrace := s.segTrace }

/-! ### What the host may do between two steps (70_reset_and_hazards.md R197) -/

/-- Send bytes on CMD (20_memory.md R54). -/
def State.send (s : State) (bs : List Byte) : State := { s with cmd := s.cmd ++ bs }

/-- Assert RESET; the next step performs the reset (R190). -/
def State.assertReset (s : State) : State := { s with resetLine := true }

/-- Replace the content of one segmented buffer (20_memory.md R64). -/
def State.setBuffer (s : State) (h : Byte) (content : List Byte) : State :=
  { s with seg := segPut s.seg h.toNat content }

end Sys2Proof.Machine
end

