-- ==== Sys2Proof/Machine/Operands.lean ====
section
/-! DEFINITION. The operand forms (spec/30_encoding.md R75): nothing (format `N`), a byte sequence (format `P`, handed
over as it stands), and a segmented range (format `S`): its range check (43_segmented_update.md R151) and the read
requests it is fetched by (R152). -/

namespace Sys2Proof.Machine

/-- `OFFSET + LEN`, computed without wrap-around (R75). -/
def rangeEnd (offset len : Word) : Nat := offset.toNat + len.toNat

/-- The range check of R151. It applies for every `LEN`, 0 included. -/
def rangeFits (m : SegSpace) (h : Byte) (offset len : Word) : Bool := rangeEnd offset len ≤ segLen m h

/-- The read requests of the loop of R152 with `o` the running offset and `rem` the remaining length: chunks of
`min(CHUNK, rem)` bytes until nothing remains. The running offset does not wrap at `2^32` (DESIGN CHOICE, log entry
16). The first argument bounds the number of passes. -/
def segRequests (h : Byte) (chunk : Nat) : Nat → Nat → Nat → List SegRequest
  | 0, _, _ => []
  | passes + 1, o, rem =>
    if rem = 0 then []
    else
      let c := min chunk rem
      ⟨h, o, c⟩ :: segRequests h chunk passes (o + c) (rem - c)

/-- The read requests of a segmented range: `LEN` passes are enough, since each moves at least one byte. -/
def rangeRequests (h : Byte) (chunk : Nat) (offset len : Word) : List SegRequest :=
  segRequests h chunk len.toNat offset.toNat len.toNat

end Sys2Proof.Machine
end

