-- ==== Sys2Proof/Machine/Segmented.lean ====
section
/-! DEFINITION. The segmented Update, once for both units (spec/43_segmented_update.md R151, R152). -/

namespace Sys2Proof.Machine

/-- How the chunked read ends. -/
inductive FeedResult (U : Type) where
  /-- Every chunk was absorbed. -/
  | done (u : U)
  /-- The unit's Update raised `Fault(NOT_STARTED)` (never, where R139 holds). -/
  | notStarted
  /-- A request fell outside the precondition of `SegRead` (log entry 8). -/
  | outside

/-- The loop of R152 over its read requests: read a chunk, feed it to the unit's Update. -/
def segFeed {U : Type} (update : U → List Byte → Option U) (m : SegSpace) (chunk : Nat) :
    List SegRequest → U → FeedResult U
  | [], u => .done u
  | r :: rs, u =>
    match segRead m chunk r with
    | none => .outside
    | some scratch =>
      match update u scratch with
      | none => .notStarted
      | some u' => segFeed update m chunk rs u'

/-- R152: `SegUpdate(U, h, off, len)` for the command `i`, with the unit `u`, its flag, its Update and the way it is
written back. The flag is tested first (60_exceptions.md R165), before SEG is touched; then the length query and the
range check; a command that faults issues no read (R164). -/
def segUpdate {U : Type} (active : Bool) (update : U → List Byte → Option U) (u : U) (put : State → U → State)
    (i : Instr) (h : Byte) (offset len : Word) (s : State) : Host.Outcome State Fault Refusal :=
  if active then
    let q := s.logSeg [.query h]
    if rangeFits s.seg h offset len then
      let rs := rangeRequests h s.chunk offset len
      match segFeed update s.seg s.chunk rs u with
      | .done u' => complete i (put (q.logSeg (rs.map .read)) u')
      | .notStarted => trap .notStarted i q
      | .outside => .fault .segReadOutside
    else trap .segRange i q
  else trap .notStarted i s

end Sys2Proof.Machine
end

