-- ==== Sys2Proof/Machine/Hmac.lean ====
section
/-! DEFINITION. The four commands of unit HMAC (spec/42_hmac.md R135 to R137, 43_segmented_update.md R154). -/

namespace Sys2Proof.Machine

/-- `HMAC.START` (R135). -/
def execHmacStart (key : List Byte) (s : State) : Host.Outcome State Fault Refusal :=
  complete (.hmacStart key) (s.setHmac (s.hmac.start key))

/-- `HMAC.UPDATE` (R136). -/
def execHmacUpdate (payload : List Byte) (s : State) : Host.Outcome State Fault Refusal :=
  match s.hmac.update payload with
  | none => trap .notStarted (.hmacUpdate payload) s
  | some u => complete (.hmacUpdate payload) (s.setHmac u)

/-- `HMAC.UPDATE_SEG` (43_segmented_update.md R154). -/
def execHmacUpdateSeg (handle : Byte) (offset len : Word) (s : State) : Host.Outcome State Fault Refusal :=
  segUpdate s.hmac.active HmacUnit.update s.hmac State.setHmac (.hmacUpdateSeg handle offset len) handle offset len s

/-- `HMAC.FINISH` (R137). -/
def execHmacFinish (s : State) : Host.Outcome State Fault Refusal :=
  match s.hmac.finish with
  | none => trap .notStarted .hmacFinish s
  | some (t, u) => complete .hmacFinish ((s.setHmac u).doutWrite t)

end Sys2Proof.Machine
end

