-- ==== Sys2Proof/Machine/Sha.lean ====
section
/-! DEFINITION. The four commands of unit SHA (spec/41_hash_engine.md R116 to R118, 43_segmented_update.md R153). -/

namespace Sys2Proof.Machine

/-- `SHA.START` (R116). -/
def execShaStart (s : State) : Host.Outcome State Fault Refusal :=
  complete .shaStart (s.setSha Engine.start)

/-- `SHA.UPDATE` (R117). -/
def execShaUpdate (payload : List Byte) (s : State) : Host.Outcome State Fault Refusal :=
  match s.sha.update payload with
  | none => trap .notStarted (.shaUpdate payload) s
  | some e => complete (.shaUpdate payload) (s.setSha e)

/-- `SHA.UPDATE_SEG` (43_segmented_update.md R153). -/
def execShaUpdateSeg (handle : Byte) (offset len : Word) (s : State) : Host.Outcome State Fault Refusal :=
  segUpdate s.sha.active Engine.update s.sha State.setSha (.shaUpdateSeg handle offset len) handle offset len s

/-- `SHA.FINISH` (R118). -/
def execShaFinish (s : State) : Host.Outcome State Fault Refusal :=
  match s.sha.finish with
  | none => trap .notStarted .shaFinish s
  | some (d, e) => complete .shaFinish ((s.setSha e).doutWrite d)

end Sys2Proof.Machine
end

