-- ==== Sys2Proof/Machine/Dispatch.lean ====
section
/-! DEFINITION. Performing one complete command (spec/30_encoding.md R76, R80): one arm per constructor. -/

namespace Sys2Proof.Machine

def exec (i : Instr) (s : State) : Host.Outcome State Fault Refusal :=
  match i with
  | .shaStart => Sys2Proof.Machine.execShaStart s
  | .shaUpdate payload => Sys2Proof.Machine.execShaUpdate payload s
  | .shaUpdateSeg handle offset len => Sys2Proof.Machine.execShaUpdateSeg handle offset len s
  | .shaFinish => Sys2Proof.Machine.execShaFinish s
  | .hmacStart key => Sys2Proof.Machine.execHmacStart key s
  | .hmacUpdate payload => Sys2Proof.Machine.execHmacUpdate payload s
  | .hmacUpdateSeg handle offset len => Sys2Proof.Machine.execHmacUpdateSeg handle offset len s
  | .hmacFinish => Sys2Proof.Machine.execHmacFinish s

end Sys2Proof.Machine
end

