-- ==== Sys2Proof/Machine/Sequencer.lean ====
section
/-! DEFINITION. What the sequencer does around a command (spec/30_encoding.md R80): reading the bytes at `pc`, taking
`Fault(ILLEGAL_CMD)`, and placing bytes where the next step reads them. -/

namespace Sys2Proof.Machine

/-- What stands at `pc` on CMD (R80). -/
def State.fetch (s : State) : Decoded := decode (s.cmd.drop s.pc)

/-- R77: an illegal opcode byte at a command boundary raises `Fault(ILLEGAL_CMD)`. -/
def illegalCommand (op : Byte) (s : State) : Host.Outcome State Fault Refusal :=
  .next (s.raiseFault .illegalCmd op)

/-- The CMD stream with `bs` as the bytes from `pc` on, the consumed bytes kept. -/
def State.placeAtPc (s : State) (bs : List Byte) : State :=
  { s with cmd := s.cmd.take s.pc ++ List.replicate (s.pc - s.cmd.length) 0 ++ bs }

end Sys2Proof.Machine
end

