-- ==== Sys2Proof/Machine/Step.lean ====
section
/-! DEFINITION. One step of the block: one pass of the sequencer (spec/30_encoding.md R80), or the reset event
(70_reset_and_hazards.md R190). -/

namespace Sys2Proof.Machine

/-- One step. RESET goes before everything, the halted state included (R190, 60_exceptions.md R166); then the sequencer
of R80. -/
def step (s : State) : Host.Outcome State Fault Refusal :=
  if s.resetLine then .next s.applyReset
  else if s.faultBit then .fault .halted
  else
    match s.fetch with
    | .command i _ => exec i s
    | .illegal op => illegalCommand op s
    | .incomplete => .fault .incompleteCommand
    | .endOfStream => .fault .endOfStream

/-- `s` with the command of `tableBytes` as the bytes on CMD from `pc` on, where the next step reads its command. It
stands for the host sending that command (log entry 12). -/
def State.withFetchWord (s : State) (nbits w : Nat) : State := s.placeAtPc (tableBytes nbits w)

end Sys2Proof.Machine
end

