-- ==== Sys2Proof/Machine/Assembler.lean ====
section
/-! DEFINITION. The textual form of commands (spec/30_encoding.md R82 to R84): one command a line, a line given as its
characters. What the rules leave open of the text (blank lines, spacing, the case of hex digits) is log entry 14. -/

namespace Sys2Proof.Machine

/-- What a line is made of. A quoted item is already the bytes it stands for. -/
inductive Token where
  | word (cs : List Char)
  | bytes (bs : List Byte)
  | plus
  | star
  | comma
  | equals
deriving DecidableEq, Repr

/-- Where the lexer is: outside quotes, inside `"..."` or inside `x"..."`. -/
inductive LexMode where
  | outside
  | quoted
  | hexQuoted
deriving DecidableEq, Repr

/-- The value of a digit, decimal or hexadecimal. -/
def digitValue (c : Char) : Option Nat :=
  let n := c.toNat
  if 48 ≤ n ∧ n ≤ 57 then some (n - 48)
  else if 97 ≤ n ∧ n ≤ 102 then some (n - 87)
  else if 65 ≤ n ∧ n ≤ 70 then some (n - 55)
  else none

/-- The value of a run of digits in a base, most significant first. -/
def digitsValue (base : Nat) : Nat → List Char → Option Nat
  | acc, [] => some acc
  | acc, c :: cs =>
    match digitValue c with
    | some d => if d < base then digitsValue base (acc * base + d) cs else none
    | none => none

/-- A decimal or `0x` hexadecimal natural number (R82). -/
def numberValue : List Char → Option Nat
  | [] => none
  | '0' :: 'x' :: d :: ds => digitsValue 16 0 (d :: ds)
  | d :: ds => digitsValue 10 0 (d :: ds)

/-- R83 (a): printable ASCII characters, one byte each. -/
def asciiBytes : List Char → Option (List Byte)
  | [] => some []
  | c :: cs =>
    if 0x20 ≤ c.toNat ∧ c.toNat ≤ 0x7e then (asciiBytes cs).map (BitVec.ofNat 8 c.toNat :: ·) else none

/-- R83 (b): an even number of hex digits, two per byte. -/
def hexBytes : List Char → Option (List Byte)
  | [] => some []
  | [_] => none
  | a :: b :: cs =>
    match digitValue a, digitValue b with
    | some x, some y => (hexBytes cs).map (BitVec.ofNat 8 (16 * x + y) :: ·)
    | _, _ => none

/-- The token of a punctuation character. -/
def punctuation (c : Char) : Option Token :=
  if c = '+' then some .plus
  else if c = '*' then some .star
  else if c = ',' then some .comma
  else if c = '=' then some .equals
  else none

/-- Put the word read so far in front of the tokens after it. -/
def withWord (cur : List Char) (ts : List Token) : List Token :=
  if cur = [] then ts else .word cur :: ts

/-- The tokens of a line; a `#` outside quotes ends it (R82). -/
def lex : LexMode → List Char → List Char → Option (List Token)
  | .outside, cur, [] => some (withWord cur [])
  | .outside, cur, c :: cs =>
    if c = '#' then some (withWord cur [])
    else if c = '"' then
      if cur = [] then lex .quoted [] cs
      else if cur = ['x'] then lex .hexQuoted [] cs
      else none
    else if c = ' ' ∨ c = '\t' then (lex .outside [] cs).map (withWord cur)
    else
      match punctuation c with
      | some t => (lex .outside [] cs).map fun ts => withWord cur (t :: ts)
      | none => lex .outside (cur ++ [c]) cs
  | .quoted, _, [] => none
  | .quoted, cur, c :: cs =>
    if c = '"' then
      match asciiBytes cur with
      | some bs => (lex .outside [] cs).map (.bytes bs :: ·)
      | none => none
    else lex .quoted (cur ++ [c]) cs
  | .hexQuoted, _, [] => none
  | .hexQuoted, cur, c :: cs =>
    if c = '"' then
      match hexBytes cur with
      | some bs => (lex .outside [] cs).map (.bytes bs :: ·)
      | none => none
    else lex .hexQuoted (cur ++ [c]) cs

/-- A number that fits its field; one that does not is an assembly error (R82). -/
def fieldValue (limit : Nat) (cs : List Char) : Option Nat :=
  match numberValue cs with
  | some n => if n < limit then some n else none
  | none => none

/-- R83 (c): one byte value repeated. A repetition of `2^32` bytes or more is an assembly error. The rule shows a `0x` byte
and a decimal count; that either number may be decimal or `0x` hexadecimal, as those of R82, is the model's choice
(DESIGN CHOICE, log entry 14). -/
def repeated (b n : List Char) : Option (List Byte) :=
  match fieldValue (2 ^ 8) b, fieldValue Config.lenLimit n with
  | some v, some k => some (List.replicate k (BitVec.ofNat 8 v))
  | _, _ => none

/-- R83: one or more items joined by `+`. -/
def byteItems : List Token → Option (List Byte)
  | [.bytes bs] => some bs
  | .bytes bs :: .plus :: rest => (byteItems rest).map (bs ++ ·)
  | [.word b, .star, .word n] => repeated b n
  | .word b :: .star :: .word n :: .plus :: rest =>
    match repeated b n with
    | some bs => (byteItems rest).map (bs ++ ·)
    | none => none
  | _ => none

/-- R83: a byte expression that fits a format `P` command. -/
def byteOperand (mk : List Byte → Instr) (ts : List Token) : Option Instr :=
  match byteItems ts with
  | some bs => if payloadFits bs then some (mk bs) else none
  | none => none

/-- The tokens of `h=<handle>, off=<offset>, len=<length>` (R82). -/
def rangeTokens (h o l : List Char) : List Token :=
  [.word ['h'], .equals, .word h, .comma, .word ['o', 'f', 'f'], .equals, .word o, .comma,
   .word ['l', 'e', 'n'], .equals, .word l]

/-- R82: the operands `h=<handle>, off=<offset>, len=<length>`. -/
def rangeOperand (mk : Byte → Word → Word → Instr) : List Token → Option Instr
  | [.word ['h'], .equals, .word h, .comma, .word ['o', 'f', 'f'], .equals, .word o, .comma,
     .word ['l', 'e', 'n'], .equals, .word l] =>
    match fieldValue (2 ^ 8) h, fieldValue Config.lenLimit o, fieldValue Config.lenLimit l with
    | some vh, some vo, some vl => some (mk (BitVec.ofNat 8 vh) (BitVec.ofNat 32 vo) (BitVec.ofNat 32 vl))
    | _, _, _ => none
  | _ => none

/-- No operand may follow (format `N`). -/
def noOperand (i : Instr) : List Token → Option Instr
  | [] => some i
  | _ => none

/-- The operands that follow a mnemonic, by its opcode. -/
def operandsOf (op : Byte) (ts : List Token) : Option Instr :=
  if op = opShaStart then noOperand .shaStart ts
  else if op = opShaUpdate then byteOperand .shaUpdate ts
  else if op = opShaUpdateSeg then rangeOperand .shaUpdateSeg ts
  else if op = opShaFinish then noOperand .shaFinish ts
  else if op = opHmacStart then byteOperand .hmacStart ts
  else if op = opHmacUpdate then byteOperand .hmacUpdate ts
  else if op = opHmacUpdateSeg then rangeOperand .hmacUpdateSeg ts
  else if op = opHmacFinish then noOperand .hmacFinish ts
  else none

/-- One line: none is an assembly error, `some none` a line without tokens, which is no error (DESIGN CHOICE, log entry
14). A mnemonic is one of the eight of R76; there are no pseudo-instructions (R84). -/
def assembleLine (line : List Char) : Option (Option Instr) :=
  match lex .outside [] line with
  | none => none
  | some [] => some none
  | some (.word m :: ts) =>
    match opcodeMap.find? fun row => row.mnemonic.toList == m with
    | some row => (operandsOf row.opcode ts).map some
    | none => none
  | some _ => none

/-- A program: its lines in order (R82). -/
def assembleProgram : List (List Char) → Option (List Instr)
  | [] => some []
  | line :: lines =>
    match assembleLine line, assembleProgram lines with
    | some (some i), some is => some (i :: is)
    | some none, some is => some is
    | _, _ => none

/-- The CMD stream of a program: its commands laid end to end (R70). -/
def assembleStream (lines : List (List Char)) : Option (List Byte) :=
  (assembleProgram lines).map fun is => is.flatMap encode

end Sys2Proof.Machine
end

