-- ==== Sys2Proof/Machine/Calls.lean ====
section
/-! DEFINITION. The calls of the document's interface as commands (spec/30_encoding.md R85). -/

namespace Sys2Proof.Machine

/-- The calls of the document's interface, with arguments of any size. -/
inductive Call where
  | shaStart
  | shaUpdate (data : List Byte)
  | shaUpdateSeg (handle offset len : Nat)
  | shaFinish
  | hmacStart (key : List Byte)
  | hmacUpdate (data : List Byte)
  | hmacUpdateSeg (handle offset len : Nat)
  | hmacFinish
deriving DecidableEq, Repr

/-- Consecutive pieces of `limit` bytes, the last of at most `limit`; a span that fits is one piece, the empty span
included. The first argument bounds the number of cuts. -/
def splitSpan (limit : Nat) : Nat → List Byte → List (List Byte)
  | 0, bs => [bs]
  | cuts + 1, bs =>
    if bs.length ≤ limit then [bs] else bs.take limit :: splitSpan limit cuts (bs.drop limit)

/-- R85 (a): the pieces a flat span is sent in. The rule asks for consecutive pieces and no more; that all but the last
are as long as a command can carry, `2^32 - 1` bytes, is the model's choice (DESIGN CHOICE, log entry 17). -/
def spanPieces (bs : List Byte) : List (List Byte) :=
  splitSpan (Config.lenLimit - 1) (bs.length / (Config.lenLimit - 1)) bs

/-- The commands a call is sent as (R85); none for a call that cannot be expressed (R85 (b), (c)). -/
def Call.commands : Call → Option (List Instr)
  | .shaStart => some [.shaStart]
  | .shaUpdate data => some ((spanPieces data).map .shaUpdate)
  | .shaUpdateSeg h o l =>
    if h < 2 ^ 8 ∧ o < 2 ^ 32 ∧ l < 2 ^ 32 then
      some [.shaUpdateSeg (BitVec.ofNat 8 h) (BitVec.ofNat 32 o) (BitVec.ofNat 32 l)]
    else none
  | .shaFinish => some [.shaFinish]
  | .hmacStart key => if payloadFits key then some [.hmacStart key] else none
  | .hmacUpdate data => some ((spanPieces data).map .hmacUpdate)
  | .hmacUpdateSeg h o l =>
    if h < 2 ^ 8 ∧ o < 2 ^ 32 ∧ l < 2 ^ 32 then
      some [.hmacUpdateSeg (BitVec.ofNat 8 h) (BitVec.ofNat 32 o) (BitVec.ofNat 32 l)]
    else none
  | .hmacFinish => some [.hmacFinish]

end Sys2Proof.Machine
end

