-- ==== Sys2Proof/Machine/Reference.lean ====
section
/-! DEFINITION. What the commands of a unit compute together, as functions of the whole message
(spec/41_hash_engine.md R119, 42_hmac.md R138): written without the engine's buffer and without the order in which
bytes arrive. Statements compare the machine with these. -/

namespace Sys2Proof.Machine

/-- The 64-byte blocks `P_0, ..., P_{r-1}` of a byte sequence, an incomplete last block left out. -/
def blocks (bs : List Byte) : List (List Byte) :=
  (List.range (bs.length / 64)).map fun k => (bs.drop (64 * k)).take 64

/-- What an incomplete last block holds: fewer than 64 bytes. -/
def leftover (bs : List Byte) : List Byte := bs.drop (64 * (bs.length / 64))

/-- `Compress` folded over the blocks of a byte sequence. -/
def compressBlocks (H : Words8) (bs : List Byte) : Words8 := (blocks bs).foldl compress H

/-- R119: the digest of a message, `Digest(Compress(... Compress(IV, P_0) ..., P_{r-1}))` with
`P = m ‖ Pad(|m| mod 64, |m|)`. -/
def sha256Of (m : List Byte) : List Byte :=
  digest (compressBlocks iv (m ++ padding (m.length % 64) (BitVec.ofNat 64 m.length)))

/-- R130, with `SHA256` taken as R119's function. -/
def keyBlock (key : List Byte) : List Byte :=
  if key.length > 64 then sha256Of key ++ List.replicate 32 0 else key ++ List.replicate (64 - key.length) 0

/-- R131: the inner pad of a key. -/
def ipadOf (key : List Byte) : List Byte := xorPad (keyBlock key) 0x36

/-- R131: the outer pad of a key. -/
def opadOf (key : List Byte) : List Byte := xorPad (keyBlock key) 0x5c

/-- R138: the tag, `SHA256(opad ‖ SHA256(ipad ‖ m))`. -/
def hmacOf (key m : List Byte) : List Byte := sha256Of (opadOf key ++ sha256Of (ipadOf key ++ m))

end Sys2Proof.Machine
end

