-- ==== Sys2Proof/Safety.lean ====
section
/-! DEFINITION. What claims about the block are stated with: its invariant, which command faults when, performing a list
of commands, the pieces of a message, and the start and the result of a run. -/

namespace Sys2Proof.Machine

/-! ### The invariant -/

/-- R23, R26 (a), (b) of an engine (spec/10_state.md). -/
def Engine.Inv : Engine → Prop
  | .idle => True
  | .running r => r.n < 64 ∧ r.n = r.total.toNat % 64

/-- R28 of the HMAC unit: an active unit has INNER active, OUTER inactive and a pad of 64 bytes; an inactive one has
both engines inactive (R134, R190). -/
def HmacUnit.Inv (u : HmacUnit) : Prop :=
  u.outer = .idle ∧ u.inner.Inv ∧
    match u.pad with
    | .idle => u.inner = .idle
    | .retained opad => opad.length = 64 ∧ u.inner.active = true

/-- R30 of the fault latch: clear, or holding one of the three causes. -/
def State.LatchInv (s : State) : Prop :=
  if s.faultBit then s.cause = 1 ∨ s.cause = 2 ∨ s.cause = 3 else s.cause = 0 ∧ s.finfo = 0

/-- The invariant of the block: what holds between any two steps. -/
structure State.Inv (s : State) : Prop where
  sha : s.sha.Inv
  hmac : s.hmac.Inv
  latch : s.LatchInv
  pc : s.pc ≤ s.cmd.length
  records : ∀ v ∈ s.dout, v.length = 32
  seg : s.seg.wf = true
  chunk : 1 ≤ s.chunk

end Sys2Proof.Machine

namespace Sys2Proof

open Machine

/-! ### Faults -/

/-- 60_exceptions.md R162, R165: the cause a complete command reports, if any. -/
def Instr.cause (i : Instr) (s : State) : Option FaultCause :=
  match i with
  | .shaStart => none
  | .shaUpdate _ => if s.sha.active then none else some .notStarted
  | .shaUpdateSeg h offset len =>
    if s.sha.active then (if offset.toNat + len.toNat ≤ segLen s.seg h then none else some .segRange)
    else some .notStarted
  | .shaFinish => if s.sha.active then none else some .notStarted
  | .hmacStart _ => none
  | .hmacUpdate _ => if s.hmac.active then none else some .notStarted
  | .hmacUpdateSeg h offset len =>
    if s.hmac.active then (if offset.toNat + len.toNat ≤ segLen s.seg h then none else some .segRange)
    else some .notStarted
  | .hmacFinish => if s.hmac.active then none else some .notStarted

/-- Whether a command addresses unit SHA; the others address HMAC (30_encoding.md R76). -/
def Instr.isSha : Instr → Bool
  | .shaStart => true
  | .shaUpdate _ => true
  | .shaUpdateSeg _ _ _ => true
  | .shaFinish => true
  | .hmacStart _ => false
  | .hmacUpdate _ => false
  | .hmacUpdateSeg _ _ _ => false
  | .hmacFinish => false

end Sys2Proof

namespace Sys2Proof.Machine

/-! ### Lists of commands -/

/-- Perform commands one after another, stopping in front of the first one when the block is halted
(30_encoding.md R80). -/
def performAll : List Instr → State → Host.Outcome State Fault Refusal
  | [], s => .next s
  | i :: is, s =>
    if s.faultBit then .fault .halted
    else
      match exec i s with
      | .next t => performAll is t
      | .fault r => .fault r
      | .refused r => .refused r

/-! ### Messages -/

/-- One Update of a message: a flat span or a segmented range (70_reset_and_hazards.md R194). -/
inductive Piece where
  | flat (p : List Byte)
  | range (h : Byte) (offset len : Word)
deriving DecidableEq, Repr

/-- The bytes a piece adds to the message. -/
def Piece.bytes (m : SegSpace) : Piece → List Byte
  | .flat p => p
  | .range h offset len => ((segContent m h).drop offset.toNat).take len.toNat

/-- The host's duty for a segmented piece: its range lies within the content (43_segmented_update.md R151). -/
def Piece.fits (m : SegSpace) : Piece → Bool
  | .flat _ => true
  | .range h offset len => offset.toNat + len.toNat ≤ segLen m h

/-- The message a list of pieces makes. -/
def messageOf (m : SegSpace) (ps : List Piece) : List Byte := ps.flatMap (Piece.bytes m)

/-- The Update of unit SHA that sends a piece. -/
def Piece.toSha : Piece → Instr
  | .flat p => .shaUpdate p
  | .range h offset len => .shaUpdateSeg h offset len

/-- The Update of unit HMAC that sends a piece. -/
def Piece.toHmac : Piece → Instr
  | .flat p => .hmacUpdate p
  | .range h offset len => .hmacUpdateSeg h offset len

/-- `l` holds the elements of `a` and of `b`, each in its order. -/
inductive Interleaves {α : Type} : List α → List α → List α → Prop where
  | done : Interleaves [] [] []
  | left {x : α} {a b l : List α} (h : Interleaves a b l) : Interleaves (x :: a) b (x :: l)
  | right {x : α} {a b l : List α} (h : Interleaves a b l) : Interleaves a (x :: b) (x :: l)

/-! ### Runs (70_reset_and_hazards.md R196) -/

/-- The start of a run: a reset, a CMD byte list, a SEG space and a value of `CHUNK`. -/
def State.boot (cmd : List Byte) (seg : SegSpace) (chunk : Nat) : State :=
  { State.reset with cmd := cmd, seg := seg, chunk := chunk }

/-- The result of a run. -/
structure RunResult where
  history : List (List Byte)
  status : Byte
  finfo : Byte
  pc : Nat
deriving DecidableEq, Repr

/-- What a run that stops in `s` has as its result. -/
def State.result (s : State) : RunResult := ⟨s.dout, s.status, s.finfoPort, s.pc⟩

/-- Up to `k` steps: the state after the last one, or why there is none (the host's `Core.run`, on this machine). -/
def runSteps : Nat → State → Host.Outcome State Fault Refusal
  | 0, s => .next s
  | k + 1, s =>
    match step s with
    | .next t => runSteps k t
    | .fault r => .fault r
    | .refused r => .refused r

/-- Step until there is no next state or the steps are used up: the last state, in which a run stops (R196). -/
def runFor : Nat → State → State
  | 0, s => s
  | k + 1, s =>
    match step s with
    | .next t => runFor k t
    | .fault _ => s
    | .refused _ => s

end Sys2Proof.Machine
end

