-- ==== Sys2Proof/Certificates/Slice0/Obligations.lean ====
section
/-! DEFINITION. The statements about the block. Each docstring names the rules of spec/ it formalises. -/

open Sys2Proof Sys2Proof.Machine

/-! ### Encoding (spec/30_encoding.md) -/

/-- R71 to R76: decoding the bytes of an encodable command gives the command back, with every operand, and leaves the
bytes after it. -/
def Obligations.DecodeOfEncode : Prop :=
  ∀ (i : Instr) (rest : List Byte), i.wf = true → decode (encode i ++ rest) = .command i rest

/-- R70 to R76: a command the decoder reads is encodable, and its bytes are exactly those the decoder consumed. -/
def Obligations.EncodeOfDecode : Prop :=
  ∀ (bs : List Byte) (i : Instr) (rest : List Byte),
    decode bs = .command i rest → i.wf = true ∧ encode i ++ rest = bs

/-- R74: the length of a command is known from its first five bytes alone: 1 for format N, 10 for S, 5 + LEN for P. -/
def Obligations.LengthFromFirstFiveBytes : Prop :=
  ∀ (i : Instr) (other : List Byte), i.wf = true →
    commandLength ((encode i).take 5 ++ other) = some (encode i).length ∧
    (encode i).length =
      match i with
      | .shaStart => 1
      | .shaUpdate p => 5 + p.length
      | .shaUpdateSeg _ _ _ => 10
      | .shaFinish => 1
      | .hmacStart key => 5 + key.length
      | .hmacUpdate p => 5 + p.length
      | .hmacUpdateSeg _ _ _ => 10
      | .hmacFinish => 1

/-- R77: an opcode byte other than the eight of R76 is illegal whatever follows it; there are 248 of them, 0x00 and 0xFF
among them; and a step that finds one at a command boundary raises `Fault(ILLEGAL_CMD)` at once and changes nothing but
the latch. -/
def Obligations.IllegalOpcodeFaultsAtOnce : Prop :=
  (∀ (op : Byte) (rest : List Byte),
    decode (op :: rest) = .illegal op ↔ op ∉ [0x10, 0x11, 0x12, 0x13, 0x20, 0x21, 0x22, 0x23]) ∧
  ((List.range 256).filter fun n => decode [BitVec.ofNat 8 n] = .illegal (BitVec.ofNat 8 n)).length = 248 ∧
  (∀ (s : State) (op : Byte), s.resetLine = false → s.faultBit = false → s.cmd[s.pc]? = some op →
    op ∉ [0x10, 0x11, 0x12, 0x13, 0x20, 0x21, 0x22, 0x23] →
    step s = .next { s with faultBit := true, cause := 1, finfo := op })

/-- R79: while only some bytes of a command have arrived, the decoder reads no command, and the block waits. -/
def Obligations.IncompleteCommandWaits : Prop :=
  ∀ (i : Instr) (n : Nat), i.wf = true → 0 < n → n < (encode i).length →
    decode ((encode i).take n) = .incomplete ∧
    ∀ s : State, s.resetLine = false → s.faultBit = false → s.cmd.drop s.pc = (encode i).take n →
      step s = .fault .incompleteCommand

/-- Command words of 30_encoding.md written out (95_test_vectors.md V-ENC): what each decodes to. -/
def Obligations.SampleCommandsDecode : Prop :=
  decode [0x10] = .command .shaStart [] ∧
  decode [0x11, 0x00, 0x00, 0x00, 0x03, 0x61, 0x62, 0x63] = .command (.shaUpdate [0x61, 0x62, 0x63]) [] ∧
  decode [0x12, 0xff, 0x01, 0x02, 0x03, 0x04, 0x0a, 0x0b, 0x0c, 0x0d] =
    .command (.shaUpdateSeg 0xff 0x01020304 0x0a0b0c0d) [] ∧
  decode [0x13, 0x10] = .command .shaFinish [0x10] ∧
  decode [0x20, 0x00, 0x00, 0x00, 0x04, 0x4a, 0x65, 0x66, 0x65] = .command (.hmacStart [0x4a, 0x65, 0x66, 0x65]) [] ∧
  decode [0x21, 0x00, 0x00, 0x00, 0x00, 0x23] = .command (.hmacUpdate []) [0x23] ∧
  decode [0x22, 0x02, 0x00, 0x00, 0x00, 0x05, 0x00, 0x00, 0x00, 0x1c] = .command (.hmacUpdateSeg 2 5 28) [] ∧
  decode [0x23] = .command .hmacFinish []

/-! ### The sequencer (spec/30_encoding.md R80), faults (60_exceptions.md), reset (70_reset_and_hazards.md) -/

/-- R80: when the bytes at `pc` are a complete command, the step performs exactly that command; `pc` and everything else
is then as `exec` leaves it. -/
def Obligations.StepRunsDecodedCommand : Prop :=
  ∀ (s : State) (i : Instr) (rest : List Byte), s.resetLine = false → s.faultBit = false → i.wf = true →
    s.cmd.drop s.pc = encode i ++ rest → step s = exec i s

/-- R166: while `FAULT = 1` and RESET is not asserted there is no next state; a next state of a halted block is the reset
state, with the latch clear and every unit inactive. -/
def Obligations.OnlyResetLeavesHalted : Prop :=
  ∀ s : State, s.faultBit = true →
    (s.resetLine = false → step s = .fault .halted) ∧
    (∀ t, step s = .next t → s.resetLine = true ∧ t.faultBit = false ∧ t.cause = 0 ∧ t.finfo = 0 ∧
      t.sha.active = false ∧ t.hmac.active = false)

/-- R190: asserting RESET in any state, the halted state and a half-received command included, gives the reset state: all
four `active` flags 0, the latch clear, `pc` 0; nothing is emitted and nothing read. The model's choices (log entries 4
to 7): received bytes are discarded with the stream, RESET is released by the step, and the history, the record of the
SEG port, the buffers and `CHUNK` stay. -/
def Obligations.ResetEvent : Prop :=
  ∀ s : State, ∃ t, step s.assertReset = .next t ∧
    t.sha.active = false ∧ t.hmac.active = false ∧ t.hmac.inner.active = false ∧ t.hmac.outer.active = false ∧
    t.faultBit = false ∧ t.cause = 0 ∧ t.finfo = 0 ∧ t.status = 0 ∧ t.pc = 0 ∧ t.cmd = [] ∧ t.resetLine = false ∧
    t.dout = s.dout ∧ t.segTrace = s.segTrace ∧ t.seg = s.seg ∧ t.chunk = s.chunk

/-- R35: the reset values the spec gives. An inactive engine and an inactive HMAC unit have no contents (R36). That
`State.reset` starts with an empty output history is the model's choice (log entry 4): R35 says the history is not
affected by reset and that a model may start a new one. -/
def Obligations.ResetValues : Prop :=
  State.reset.sha.active = false ∧ State.reset.hmac.active = false ∧
  State.reset.hmac.inner.active = false ∧ State.reset.hmac.outer.active = false ∧
  State.reset.faultBit = false ∧ State.reset.cause = 0 ∧ State.reset.finfo = 0 ∧ State.reset.status = 0x00 ∧
  State.reset.sha = .idle ∧ State.reset.hmac = ⟨.idle, .idle, .idle⟩ ∧
  State.reset.pc = 0 ∧ State.reset.dout = []

/-- 10_state.md R23, R26, R28, R30: the invariant holds after reset. -/
def Obligations.ResetMeetsInvariant : Prop := State.reset.Inv

/-- 10_state.md R23, R26 (a), (b), R28, R30: from every state that meets the invariant, a step leads to a state that
meets it: fewer than 64 bytes buffered, and as many as the byte counter modulo 64; an active HMAC unit has INNER active,
OUTER inactive and a 64-byte pad; the latch is clear or holds one of the three causes; `pc` stays within the stream;
every record has 32 bytes; the SEG space keeps its form; `CHUNK` is at least 1. -/
def Obligations.StepKeepsInvariant : Prop :=
  ∀ s t : State, s.Inv → step s = .next t → t.Inv

/-- 60_exceptions.md R164: a command that faults has no other effect. A step that sets the latch changes nothing but
`FAULT`, `CAUSE` and `FINFO`, which records the byte at `pc`; no read was issued on SEG, at most a length query. -/
def Obligations.FaultsArePrecise : Prop :=
  ∀ s t : State, s.faultBit = false → step s = .next t → t.faultBit = true →
    ∃ (c : FaultCause) (op : Byte) (evs : List SegEvent),
      s.cmd[s.pc]? = some op ∧
      (evs = [] ∨ ∃ h, evs = [.query h]) ∧
      t = { s with faultBit := true, cause := c.code, finfo := op, segTrace := s.segTrace ++ evs }

/-- 60_exceptions.md R162, R165: which command raises which cause. In every state that meets the invariant, each of the
eight commands completes (leaving the latch as it was and moving `pc` past itself) exactly when the table gives no
cause, and otherwise takes the fault the table gives, recording its opcode byte, with `pc` where it was. -/
def Obligations.CommandsCompleteOrFaultByTable : Prop :=
  ∀ (i : Instr) (s : State), s.Inv → ∃ t, exec i s = .next t ∧
    match i.cause s with
    | none => t.faultBit = s.faultBit ∧ t.cause = s.cause ∧ t.finfo = s.finfo ∧ t.pc = s.pc + i.size
    | some c => t.faultBit = true ∧ t.cause = c.code ∧ t.finfo = i.opcode ∧ t.pc = s.pc ∧
        t.sha = s.sha ∧ t.hmac = s.hmac ∧ t.dout = s.dout

/-- 60_exceptions.md R162, R163: the six commands that need their unit active raise `Fault(NOT_STARTED)` when it is not,
the segmented ones whatever their range (R165), and change nothing but the latch. -/
def Obligations.NotStartedFaults : Prop :=
  (∀ (s : State) (p : List Byte) (h : Byte) (o l : Word), s.sha.active = false →
    exec (.shaUpdate p) s = .next { s with faultBit := true, cause := 2, finfo := 0x11 } ∧
    exec (.shaUpdateSeg h o l) s = .next { s with faultBit := true, cause := 2, finfo := 0x12 } ∧
    exec .shaFinish s = .next { s with faultBit := true, cause := 2, finfo := 0x13 }) ∧
  (∀ (s : State) (p : List Byte) (h : Byte) (o l : Word), s.hmac.active = false →
    exec (.hmacUpdate p) s = .next { s with faultBit := true, cause := 2, finfo := 0x21 } ∧
    exec (.hmacUpdateSeg h o l) s = .next { s with faultBit := true, cause := 2, finfo := 0x22 } ∧
    exec .hmacFinish s = .next { s with faultBit := true, cause := 2, finfo := 0x23 })

/-- 43_segmented_update.md R151: a range past the content raises `Fault(SEG_RANGE)` for every `LEN`, 0 included: nothing
is read (the port saw the length query only), nothing absorbed, no unit changes. -/
def Obligations.SegRangeFaults : Prop :=
  (∀ (s : State) (h : Byte) (o l : Word), s.sha.active = true → segLen s.seg h < o.toNat + l.toNat →
    exec (.shaUpdateSeg h o l) s =
      .next { s with faultBit := true, cause := 3, finfo := 0x12, segTrace := s.segTrace ++ [.query h] }) ∧
  (∀ (s : State) (h : Byte) (o l : Word), s.hmac.active = true → segLen s.seg h < o.toNat + l.toNat →
    exec (.hmacUpdateSeg h o l) s =
      .next { s with faultBit := true, cause := 3, finfo := 0x22, segTrace := s.segTrace ++ [.query h] })

/-- 10_state.md R30: the layout of STATUS; with the latch clear, bits 5:2 read 0 (60_exceptions.md R169). The FAULT line is
the FAULT bit (R167), and FINFO reads the register. -/
def Obligations.StatusLayout : Prop :=
  (∀ s : State,
    s.status.getLsbD 0 = s.sha.active ∧ s.status.getLsbD 1 = s.hmac.active ∧ s.status.getLsbD 2 = s.faultBit ∧
    s.status.extractLsb' 3 3 = s.cause ∧ s.status.extractLsb' 6 2 = 0 ∧
    s.faultLine = s.faultBit ∧ s.finfoPort = s.finfo) ∧
  (∀ s : State, s.LatchInv → s.faultBit = false → s.status.extractLsb' 2 4 = 0)

/-- 10_state.md R31, 20_memory.md R54: a step without reset moves `pc` past the one command it performed, or, when it
sets the latch, leaves `pc` where it was; the stream itself is not changed. -/
def Obligations.PcMovesPastTheCommand : Prop :=
  ∀ s t : State, s.resetLine = false → step s = .next t →
    t.cmd = s.cmd ∧
    ((t.faultBit = false ∧ ∃ (i : Instr) (rest : List Byte),
        decode (s.cmd.drop s.pc) = .command i rest ∧ t.pc = s.pc + (encode i).length) ∨
      (t.faultBit = true ∧ t.pc = s.pc))

/-- 20_memory.md R55, 10_state.md R34: a Finish command that does not fault emits exactly one record, of 32 bytes, after
those already emitted; no other command emits anything, and nothing emitted changes. -/
def Obligations.OneRecordPerFinish : Prop :=
  ∀ (i : Instr) (s t : State), s.faultBit = false → exec i s = .next t →
    if (i = .shaFinish ∨ i = .hmacFinish) ∧ t.faultBit = false then
      ∃ v : List Byte, v.length = 32 ∧ t.dout = s.dout ++ [v]
    else t.dout = s.dout

/-- 30_encoding.md R70, R80, R81: stepping over a stream of encoded commands is performing the list of commands, faults
and their halting included. -/
def Obligations.StreamRunIsCommandList : Prop :=
  ∀ (cs : List Instr) (s : State) (tail : List Byte), (∀ i ∈ cs, i.wf = true) →
    s.resetLine = false → s.cmd.drop s.pc = cs.flatMap encode ++ tail →
    runSteps cs.length s = performAll cs s

/-- 30_encoding.md R81, 70_reset_and_hazards.md R196: a program of `k` complete commands comes to its end within `k`
steps; without a fault its end is the exhausted stream, with `pc` at the stream's length. -/
def Obligations.ProgramsEnd : Prop :=
  ∀ (cs : List Instr) (s : State), (∀ i ∈ cs, i.wf = true) → s.resetLine = false → s.pc ≤ s.cmd.length →
    s.cmd.drop s.pc = cs.flatMap encode →
    (∃ r, runSteps (cs.length + 1) s = .fault r) ∧
    (∀ t, performAll cs s = .next t → t.faultBit = false →
      runSteps (cs.length + 1) s = .fault .endOfStream ∧ t.pc = t.cmd.length)

/-- 70_reset_and_hazards.md R196: every run ends, in one of three ways. From every state that meets the invariant with
RESET not asserted, after at most as many steps as bytes remain on CMD the block has come to a state without a next one:
the stream exhausted at a command boundary (a), the remaining bytes no complete command (b), or halted (c). The start of
a run is such a state. -/
def Obligations.EveryRunEnds : Prop :=
  (∀ s : State, s.Inv → s.resetLine = false →
    let e := runFor (s.cmd.length - s.pc) s
    e.cmd = s.cmd ∧
    ((step e = .fault .endOfStream ∧ e.faultBit = false ∧ e.pc = s.cmd.length) ∨
      (step e = .fault .incompleteCommand ∧ e.faultBit = false ∧ e.pc < s.cmd.length) ∨
      (step e = .fault .halted ∧ e.faultBit = true))) ∧
  (∀ (cmd : List Byte) (seg : SegSpace) (chunk : Nat), seg.wf = true → 1 ≤ chunk →
    (State.boot cmd seg chunk).Inv ∧ (State.boot cmd seg chunk).resetLine = false)

/-! ### The compression function (spec/40_compress.md) -/

/-- R92 with the shifts of 00_scope.md section 6, bit by bit: `Ch` picks each bit from `y` where `x` has a 1 and from `z`
where it has a 0; `Maj` is the majority; each sigma is the XOR of the bits at its rotation amounts, and of the shifted
bit, where the shift has one. -/
def Obligations.LogicalFunctionsBitwise : Prop :=
  ∀ (x y z : Word) (b : Nat), b < 32 →
    (ch x y z).getLsbD b = (if x.getLsbD b then y.getLsbD b else z.getLsbD b) ∧
    (maj x y z).getLsbD b = decide (2 ≤ (x.getLsbD b).toNat + (y.getLsbD b).toNat + (z.getLsbD b).toNat) ∧
    (bsig0 x).getLsbD b =
      (x.getLsbD ((b + 2) % 32) ^^ x.getLsbD ((b + 13) % 32) ^^ x.getLsbD ((b + 22) % 32)) ∧
    (bsig1 x).getLsbD b =
      (x.getLsbD ((b + 6) % 32) ^^ x.getLsbD ((b + 11) % 32) ^^ x.getLsbD ((b + 25) % 32)) ∧
    (ssig0 x).getLsbD b =
      (x.getLsbD ((b + 7) % 32) ^^ x.getLsbD ((b + 18) % 32) ^^ (decide (b + 3 < 32) && x.getLsbD (b + 3))) ∧
    (ssig1 x).getLsbD b =
      (x.getLsbD ((b + 17) % 32) ^^ x.getLsbD ((b + 19) % 32) ^^ (decide (b + 10 < 32) && x.getLsbD (b + 10)))

/-- R94, R95, R96, R97: compressing a 64-byte block is 64 rounds over a schedule of 64 words, the first sixteen taken
from the block big-endian and the others by the recurrence, from the working words `H`, each round as the rule writes
it, then the feed-forward. R91: the round constants are the 64 words of its table. -/
def Obligations.CompressIsSixtyFourRounds : Prop :=
  roundConstants =
    ([0x428a2f98, 0x71374491, 0xb5c0fbcf, 0xe9b5dba5, 0x3956c25b, 0x59f111f1, 0x923f82a4, 0xab1c5ed5] ++
     [0xd807aa98, 0x12835b01, 0x243185be, 0x550c7dc3, 0x72be5d74, 0x80deb1fe, 0x9bdc06a7, 0xc19bf174] ++
     [0xe49b69c1, 0xefbe4786, 0x0fc19dc6, 0x240ca1cc, 0x2de92c6f, 0x4a7484aa, 0x5cb0a9dc, 0x76f988da] ++
     [0x983e5152, 0xa831c66d, 0xb00327c8, 0xbf597fc7, 0xc6e00bf3, 0xd5a79147, 0x06ca6351, 0x14292967] ++
     [0x27b70a85, 0x2e1b2138, 0x4d2c6dfc, 0x53380d13, 0x650a7354, 0x766a0abb, 0x81c2c92e, 0x92722c85] ++
     [0xa2bfe8a1, 0xa81a664b, 0xc24b8b70, 0xc76c51a3, 0xd192e819, 0xd6990624, 0xf40e3585, 0x106aa070] ++
     [0x19a4c116, 0x1e376c08, 0x2748774c, 0x34b0bcb5, 0x391c0cb3, 0x4ed8aa4a, 0x5b9cca4f, 0x682e6ff3] ++
     [0x748f82ee, 0x78a5636f, 0x84c87814, 0x8cc70208, 0x90befffa, 0xa4506ceb, 0xbef9a3f7, 0xc67178f2]) ∧
  ∀ (H : Words8) (B : List Byte), B.length = 64 →
    ∃ (W : Nat → Word) (v : Nat → Words8),
      (∀ t, t < 16 → W t = BitVec.ofNat 32
        ((B.getD (4 * t) 0).toNat * 2 ^ 24 + (B.getD (4 * t + 1) 0).toNat * 2 ^ 16 +
          (B.getD (4 * t + 2) 0).toNat * 2 ^ 8 + (B.getD (4 * t + 3) 0).toNat)) ∧
      (∀ t, 16 ≤ t → t < 64 → W t = ssig1 (W (t - 2)) + W (t - 7) + ssig0 (W (t - 15)) + W (t - 16)) ∧
      v 0 = H ∧
      (∀ t, t < 64 →
        let a := (v t).w0; let b := (v t).w1; let c := (v t).w2; let d := (v t).w3
        let e := (v t).w4; let f := (v t).w5; let g := (v t).w6; let h := (v t).w7
        let t1 := h + bsig1 e + ch e f g + roundConstants.getD t 0 + W t
        let t2 := bsig0 a + maj a b c
        v (t + 1) = ⟨t1 + t2, a, b, c, d + t1, e, f, g⟩) ∧
      compress H B = ⟨H.w0 + (v 64).w0, H.w1 + (v 64).w1, H.w2 + (v 64).w2, H.w3 + (v 64).w3,
        H.w4 + (v 64).w4, H.w5 + (v 64).w5, H.w6 + (v 64).w6, H.w7 + (v 64).w7⟩

/-- R90, R91: the two constant tables by their definition. `IV[i]` is the first 32 bits of the fractional part of the
square root of the `i`-th prime: the integer part of `2^32` times the root, modulo `2^32`. `K[t]` is that of the cube
root of the `t`-th prime. The 64 primes up to 311 are the numbers from 2 on that no smaller number from 2 to 17 divides,
since `18^2` is greater than 311. -/
def Obligations.TablesAreRootsOfPrimes : Prop :=
  let primes := (List.range 312).filter fun n => 2 ≤ n ∧ ∀ d ∈ List.range 18, 2 ≤ d → d < n → n % d ≠ 0
  primes.length = 64 ∧
  (∀ (i p : Nat), i < 8 → primes[i]? = some p →
    ∃ r, r ^ 2 ≤ p * 2 ^ 64 ∧ p * 2 ^ 64 < (r + 1) ^ 2 ∧
      [iv.w0, iv.w1, iv.w2, iv.w3, iv.w4, iv.w5, iv.w6, iv.w7][i]? = some (BitVec.ofNat 32 r)) ∧
  (∀ (t p : Nat), primes[t]? = some p →
    ∃ r, r ^ 3 ≤ p * 2 ^ 96 ∧ p * 2 ^ 96 < (r + 1) ^ 3 ∧ roundConstants[t]? = some (BitVec.ofNat 32 r))

/-! ### The engine and unit SHA (spec/41_hash_engine.md) -/

/-- R116 (R110): `SHA.START` is the byte `0x10`; it completes in every state: the words are `IV`, nothing is buffered, the
counter is 0, the flag is 1, `pc` moves by 1, and nothing else changes. R90: `IV` is the eight words of its table. -/
def Obligations.ShaStartResult : Prop :=
  encode .shaStart = [0x10] ∧
  iv = ⟨0x6a09e667, 0xbb67ae85, 0x3c6ef372, 0xa54ff53a, 0x510e527f, 0x9b05688c, 0x1f83d9ab, 0x5be0cd19⟩ ∧
  ∀ s : State, exec .shaStart s = .next { s with sha := .running ⟨iv, [], 0⟩, pc := s.pc + 1 }

/-- R117 (R111): `SHA.UPDATE` is `0x11`, the payload's length in four bytes, and the payload. On an inactive engine it
faults with `NOT_STARTED` and nothing else changes. On an active one it completes: with `n0` bytes buffered and payload
`p`, the first `floor((n0 + |p|) / 64)` blocks of the buffered bytes followed by `p` are compressed in order, the
remaining `(n0 + |p|) mod 64` bytes stay buffered, the counter advances by `|p|` modulo `2^64`, `pc` by `5 + |p|`, and
nothing else changes. -/
def Obligations.ShaUpdateResult : Prop :=
  ∀ (s : State) (p : List Byte),
    encode (.shaUpdate p) = 0x11 :: (be32 (BitVec.ofNat 32 p.length) ++ p) ∧
    (s.sha.active = false →
      exec (.shaUpdate p) s = .next { s with faultBit := true, cause := 2, finfo := 0x11 }) ∧
    (∀ (H : Words8) (buf : List Byte) (total : Count), s.sha = .running ⟨H, buf, total⟩ → buf.length < 64 →
      exec (.shaUpdate p) s = .next { s with
        sha := .running ⟨compressBlocks H (buf ++ p), leftover (buf ++ p), total + BitVec.ofNat 64 p.length⟩
        pc := s.pc + (5 + p.length) } ∧
      (blocks (buf ++ p)).length = (buf.length + p.length) / 64 ∧
      (leftover (buf ++ p)).length = (buf.length + p.length) % 64)

/-- R118 (R114): `SHA.FINISH` is the byte `0x13`. On an inactive engine it faults with `NOT_STARTED` and nothing else
changes. On an active one it completes: it emits the digest of the words after one compression when at most 55 bytes are
buffered and after two otherwise, over the buffered bytes and their padding; the engine is then inactive, `pc` moves by
1, and nothing else changes. -/
def Obligations.ShaFinishResult : Prop :=
  encode .shaFinish = [0x13] ∧
  ∀ s : State,
    (s.sha.active = false →
      exec .shaFinish s = .next { s with faultBit := true, cause := 2, finfo := 0x13 }) ∧
    (∀ (H : Words8) (buf : List Byte) (total : Count), s.sha = .running ⟨H, buf, total⟩ → buf.length < 64 →
      exec .shaFinish s = .next { s with
        sha := .idle
        dout := s.dout ++ [digest (compressBlocks H (buf ++ padding buf.length total))]
        pc := s.pc + 1 } ∧
      (blocks (buf ++ padding buf.length total)).length = (if buf.length ≤ 55 then 1 else 2))

/-- R113: the padding sequence is a `0x80` byte, `k` zero bytes and the bit length `8 * total` modulo `2^64` big-endian,
where `k` is the least number that makes `n + 1 + k + 8` a multiple of 64: `55 - n` up to `n = 55`, giving one block,
and `119 - n` from 56 on, giving two. -/
def Obligations.PaddingShape : Prop :=
  ∀ (n : Nat) (total : Count), n < 64 →
    ∃ k : Nat,
      padding n total = (0x80 : Byte) :: (List.replicate k 0 ++ be64 (BitVec.ofNat 64 (8 * total.toNat))) ∧
      (n + 1 + k + 8) % 64 = 0 ∧ (∀ j, (n + 1 + j + 8) % 64 = 0 → k ≤ j) ∧
      (n ≤ 55 → k = 55 - n ∧ n + (padding n total).length = 64) ∧
      (56 ≤ n → k = 119 - n ∧ n + (padding n total).length = 128)

/-- R115: byte `4i + j` of the digest is bits `31-8j : 24-8j` of `H[i]`, and the digest has 32 bytes. -/
def Obligations.DigestSerialisation : Prop :=
  ∀ H : Words8, (digest H).length = 32 ∧
    ∀ (i j : Nat) (w : Word), [H.w0, H.w1, H.w2, H.w3, H.w4, H.w5, H.w6, H.w7][i]? = some w → j < 4 →
      (digest H)[4 * i + j]? = some (w.extractLsb' (24 - 8 * j) 8)

/-- R112 (b): two Updates in a row leave exactly the state one Update with both spans leaves, but for `pc`, which moved
past two commands; for both units. -/
def Obligations.UpdatesJoin : Prop :=
  ∀ (s : State) (p q : List Byte),
    (s.sha.active = true → ∃ t u, exec (.shaUpdate p) s = .next t ∧ exec (.shaUpdate q) t = .next u ∧
      exec (.shaUpdate (p ++ q)) s = .next { u with pc := s.pc + (5 + (p.length + q.length)) }) ∧
    (s.hmac.active = true → s.hmac.inner.active = true →
      ∃ t u, exec (.hmacUpdate p) s = .next t ∧ exec (.hmacUpdate q) t = .next u ∧
      exec (.hmacUpdate (p ++ q)) s = .next { u with pc := s.pc + (5 + (p.length + q.length)) })

/-- R112 (a): an Update of length 0 on an active unit completes and changes nothing but `pc`; for both units. -/
def Obligations.EmptyUpdateChangesNothing : Prop :=
  (∀ s : State, s.sha.active = true → exec (.shaUpdate []) s = .next { s with pc := s.pc + 5 }) ∧
  (∀ s : State, s.hmac.active = true → s.hmac.inner.active = true →
    exec (.hmacUpdate []) s = .next { s with pc := s.pc + 5 })

/-- R119, 70_reset_and_hazards.md R194: the digest depends on the message alone. From any state that is not halted,
`SHA.START`, any list of flat and segmented Updates whose ranges lie in their buffers, and `SHA.FINISH` complete, and emit
exactly one record: the digest of the concatenated message. And whatever commands of unit HMAC stand between them, if
none of the commands faults, `SHA.FINISH` still emits that digest. -/
def Obligations.ShaDigestOfMessage : Prop :=
  ∀ (s : State) (ps : List Piece), s.faultBit = false → 1 ≤ s.chunk → (messageOf s.seg ps).length < 2 ^ 61 →
    ((∀ p ∈ ps, p.fits s.seg = true) →
      ∃ t, performAll (.shaStart :: ps.map Piece.toSha ++ [.shaFinish]) s = .next t ∧
        t.dout = s.dout ++ [sha256Of (messageOf s.seg ps)] ∧
        t.faultBit = false ∧ t.sha = .idle ∧ t.hmac = s.hmac) ∧
    (∀ (cs : List Instr) (t : State), cs.filter (fun i => i.isSha) = ps.map Piece.toSha →
      performAll (.shaStart :: cs) s = .next t → t.faultBit = false →
      ∃ u, exec .shaFinish t = .next u ∧ u.dout = t.dout ++ [sha256Of (messageOf s.seg ps)] ∧ u.faultBit = false)

/-! ### Unit HMAC (spec/42_hmac.md) -/

/-- R130, R131: the normalised key is 64 bytes: a key longer than 64 bytes is replaced by its digest, and zero bytes are
appended; the pads are its bytes XORed with 0x36 and 0x5c. -/
def Obligations.KeyNormalisation : Prop :=
  ∀ key : List Byte,
    (normKey key).length = 64 ∧
    (key.length ≤ 64 → normKey key = key ++ List.replicate (64 - key.length) 0) ∧
    (64 < key.length → normKey key = sha256Of key ++ List.replicate 32 0) ∧
    (∀ (i : Nat) (b : Byte), (normKey key)[i]? = some b →
      (xorPad (normKey key) Config.ipadByte)[i]? = some (b ^^^ 0x36) ∧
      (xorPad (normKey key) Config.opadByte)[i]? = some (b ^^^ 0x5c))

/-- R135 (R132): `HMAC.START` is `0x20`, the key's length in four bytes, and the key. It completes in every state: INNER
has absorbed the inner pad with one compression, nothing is buffered and its counter is 64; the outer pad is retained;
OUTER is not touched; `pc` moves by `5 + |key|`, and nothing else changes. -/
def Obligations.HmacStartResult : Prop :=
  ∀ (s : State) (key : List Byte),
    encode (.hmacStart key) = 0x20 :: (be32 (BitVec.ofNat 32 key.length) ++ key) ∧
    exec (.hmacStart key) s = .next { s with
      hmac := ⟨.running ⟨compress iv (ipadOf key), [], 64⟩, s.hmac.outer, .retained (opadOf key)⟩
      pc := s.pc + (5 + key.length) }

/-- R136 (R133): `HMAC.UPDATE` is `0x21`, the payload's length in four bytes, and the payload. On an inactive unit it
faults with `NOT_STARTED` and nothing else changes. On an active one it completes: INNER absorbs the payload as R111
says, the pad and OUTER are not touched, `pc` moves by `5 + |p|`, and nothing else changes. -/
def Obligations.HmacUpdateResult : Prop :=
  ∀ (s : State) (p : List Byte),
    encode (.hmacUpdate p) = 0x21 :: (be32 (BitVec.ofNat 32 p.length) ++ p) ∧
    (s.hmac.active = false →
      exec (.hmacUpdate p) s = .next { s with faultBit := true, cause := 2, finfo := 0x21 }) ∧
    (∀ (H : Words8) (buf opad : List Byte) (total : Count) (outer : Engine),
      s.hmac = ⟨.running ⟨H, buf, total⟩, outer, .retained opad⟩ → buf.length < 64 →
      exec (.hmacUpdate p) s = .next { s with
        hmac := ⟨.running ⟨compressBlocks H (buf ++ p), leftover (buf ++ p), total + BitVec.ofNat 64 p.length⟩,
          outer, .retained opad⟩
        pc := s.pc + (5 + p.length) })

/-- R137 (R134): `HMAC.FINISH` is the byte `0x23`. On an inactive unit it faults with `NOT_STARTED` and nothing else
changes. On an active one it completes: with `d` the inner digest, it emits the digest of two more compressions from
`IV`, of the outer pad and of `d` padded as 96 bytes; both engines and the unit are then inactive, `pc` moves by 1, and
nothing else changes. -/
def Obligations.HmacFinishResult : Prop :=
  encode .hmacFinish = [0x23] ∧
  ∀ s : State,
    (s.hmac.active = false →
      exec .hmacFinish s = .next { s with faultBit := true, cause := 2, finfo := 0x23 }) ∧
    (∀ (H : Words8) (buf opad : List Byte) (total : Count) (outer : Engine),
      s.hmac = ⟨.running ⟨H, buf, total⟩, outer, .retained opad⟩ → buf.length < 64 → opad.length = 64 →
      exec .hmacFinish s = .next { s with
        hmac := ⟨.idle, .idle, .idle⟩
        dout := s.dout ++ [digest (compress (compress iv opad)
          (digest (compressBlocks H (buf ++ padding buf.length total)) ++ padding 32 96))]
        pc := s.pc + 1 })

/-- R138: the tag depends on the key and the message alone. From any state that is not halted, `HMAC.START`, any list of
flat and segmented Updates whose ranges lie in their buffers, and `HMAC.FINISH` complete, and emit exactly one record: the
nested digest of pads and message. And whatever commands of unit SHA stand between them, if none of the commands faults,
`HMAC.FINISH` still emits that tag. -/
def Obligations.HmacTagOfMessage : Prop :=
  ∀ (s : State) (key : List Byte) (ps : List Piece), s.faultBit = false → 1 ≤ s.chunk →
    64 + (messageOf s.seg ps).length < 2 ^ 61 →
    ((∀ p ∈ ps, p.fits s.seg = true) →
      ∃ t, performAll (.hmacStart key :: ps.map Piece.toHmac ++ [.hmacFinish]) s = .next t ∧
        t.dout = s.dout ++ [hmacOf key (messageOf s.seg ps)] ∧
        t.faultBit = false ∧ t.hmac.active = false ∧ t.sha = s.sha) ∧
    (∀ (cs : List Instr) (t : State), cs.filter (fun i => !i.isSha) = ps.map Piece.toHmac →
      performAll (.hmacStart key :: cs) s = .next t → t.faultBit = false →
      ∃ u, exec .hmacFinish t = .next u ∧ u.dout = t.dout ++ [hmacOf key (messageOf s.seg ps)] ∧ u.faultBit = false)

/-- The document's two worked examples (95_test_vectors.md V-SRC-1, V-SRC-2, the latter as 90_conflicts.md C2 restores it;
R118, R137): the digest of "abc", and the tag of key "Jefe" and data "what do ya want for nothing?". -/
def Obligations.WorkedExamples : Prop :=
  sha256Of [0x61, 0x62, 0x63] =
    [0xba, 0x78, 0x16, 0xbf, 0x8f, 0x01, 0xcf, 0xea, 0x41, 0x41, 0x40, 0xde, 0x5d, 0xae, 0x22, 0x23] ++
    [0xb0, 0x03, 0x61, 0xa3, 0x96, 0x17, 0x7a, 0x9c, 0xb4, 0x10, 0xff, 0x61, 0xf2, 0x00, 0x15, 0xad] ∧
  hmacOf [0x4a, 0x65, 0x66, 0x65]
    ([0x77, 0x68, 0x61, 0x74, 0x20, 0x64, 0x6f, 0x20, 0x79, 0x61, 0x20, 0x77, 0x61, 0x6e, 0x74, 0x20] ++
     [0x66, 0x6f, 0x72, 0x20, 0x6e, 0x6f, 0x74, 0x68, 0x69, 0x6e, 0x67, 0x3f]) =
    [0x5b, 0xdc, 0xc1, 0x46, 0xbf, 0x60, 0x75, 0x4e, 0x6a, 0x04, 0x24, 0x26, 0x08, 0x95, 0x75, 0xc7] ++
    [0x5a, 0x00, 0x3f, 0x08, 0x9d, 0x27, 0x39, 0x83, 0x9d, 0xec, 0x58, 0xb9, 0x64, 0xec, 0x38, 0x43]

/-- 10_state.md R26, R28: what the units hold in the middle of a message. After a Start and any Updates whose ranges lie in
their buffers, the engine's words are `Compress` folded over the complete blocks of the message, its buffer is the rest,
and its counter is the message's length modulo `2^64`; INNER has the inner pad in front of the message, and the outer
pad is that of the key. -/
def Obligations.UnitsHoldTheMessage : Prop :=
  ∀ (s : State) (key : List Byte) (ps : List Piece), s.faultBit = false → 1 ≤ s.chunk →
    (∀ p ∈ ps, p.fits s.seg = true) →
    let m := messageOf s.seg ps
    (∃ t, performAll (.shaStart :: ps.map Piece.toSha) s = .next t ∧
      t.sha = .running ⟨compressBlocks iv m, leftover m, BitVec.ofNat 64 m.length⟩) ∧
    (∃ t, performAll (.hmacStart key :: ps.map Piece.toHmac) s = .next t ∧
      t.hmac = ⟨.running ⟨compressBlocks iv (ipadOf key ++ m), leftover m, BitVec.ofNat 64 (64 + m.length)⟩,
        s.hmac.outer, .retained (opadOf key)⟩)

/-- 10_state.md R28 (b): the outer pad does not change between `HMAC.START` and `HMAC.FINISH`: every command but
`HMAC.START` leaves it as it was, or is an `HMAC.FINISH` that ends it. -/
def Obligations.OuterPadFixed : Prop :=
  ∀ (i : Instr) (s t : State), exec i s = .next t → (∀ key, i ≠ .hmacStart key) →
    t.hmac.pad = s.hmac.pad ∨ (i = .hmacFinish ∧ t.hmac.pad = .idle)

/-! ### Segmented Updates (spec/43_segmented_update.md) -/

/-- R153: `SHA.UPDATE_SEG` is `0x12`, the handle, and offset and length in four bytes each. On an inactive engine it
faults with `NOT_STARTED`; on an active one with a range past the content, with `SEG_RANGE`, after the length query alone.
Otherwise it completes: the engine absorbs the bytes of the range as R111 says, the port saw the query and the
`ceil(LEN / CHUNK)` reads of R152, `pc` moves by 10, and nothing else changes. (That the port's events are recorded in
the state is the model's choice, log entry 7.) -/
def Obligations.ShaUpdateSegResult : Prop :=
  ∀ (s : State) (h : Byte) (o l : Word),
    encode (.shaUpdateSeg h o l) = 0x12 :: h :: (be32 o ++ be32 l) ∧
    (s.sha.active = false →
      exec (.shaUpdateSeg h o l) s = .next { s with faultBit := true, cause := 2, finfo := 0x12 }) ∧
    (s.sha.active = true → segLen s.seg h < o.toNat + l.toNat →
      exec (.shaUpdateSeg h o l) s =
        .next { s with faultBit := true, cause := 3, finfo := 0x12, segTrace := s.segTrace ++ [.query h] }) ∧
    (∀ (H : Words8) (buf : List Byte) (total : Count), s.sha = .running ⟨H, buf, total⟩ → buf.length < 64 →
      1 ≤ s.chunk → o.toNat + l.toNat ≤ segLen s.seg h →
      let bytes := ((segContent s.seg h).drop o.toNat).take l.toNat
      exec (.shaUpdateSeg h o l) s = .next { s with
        sha := .running ⟨compressBlocks H (buf ++ bytes), leftover (buf ++ bytes), total + BitVec.ofNat 64 l.toNat⟩
        pc := s.pc + 10
        segTrace := s.segTrace ++ .query h ::
          (List.range ((l.toNat + s.chunk - 1) / s.chunk)).map fun i =>
            .read ⟨h, o.toNat + i * s.chunk, min s.chunk (l.toNat - i * s.chunk)⟩ })

/-- R154: `HMAC.UPDATE_SEG` is `0x22`, the handle, and offset and length in four bytes each. On an inactive unit it faults
with `NOT_STARTED`; on an active one with a range past the content, with `SEG_RANGE`, after the length query alone.
Otherwise it completes: INNER absorbs the bytes of the range as R111 says, the pad and OUTER are not touched, the port
saw the query and the `ceil(LEN / CHUNK)` reads of R152, `pc` moves by 10, and nothing else changes. (That the port's
events are recorded in the state is the model's choice, log entry 7.) -/
def Obligations.HmacUpdateSegResult : Prop :=
  ∀ (s : State) (h : Byte) (o l : Word),
    encode (.hmacUpdateSeg h o l) = 0x22 :: h :: (be32 o ++ be32 l) ∧
    (s.hmac.active = false →
      exec (.hmacUpdateSeg h o l) s = .next { s with faultBit := true, cause := 2, finfo := 0x22 }) ∧
    (s.hmac.active = true → segLen s.seg h < o.toNat + l.toNat →
      exec (.hmacUpdateSeg h o l) s =
        .next { s with faultBit := true, cause := 3, finfo := 0x22, segTrace := s.segTrace ++ [.query h] }) ∧
    (∀ (H : Words8) (buf opad : List Byte) (total : Count) (outer : Engine),
      s.hmac = ⟨.running ⟨H, buf, total⟩, outer, .retained opad⟩ → buf.length < 64 →
      1 ≤ s.chunk → o.toNat + l.toNat ≤ segLen s.seg h →
      let bytes := ((segContent s.seg h).drop o.toNat).take l.toNat
      exec (.hmacUpdateSeg h o l) s = .next { s with
        hmac := ⟨.running ⟨compressBlocks H (buf ++ bytes), leftover (buf ++ bytes),
          total + BitVec.ofNat 64 l.toNat⟩, outer, .retained opad⟩
        pc := s.pc + 10
        segTrace := s.segTrace ++ .query h ::
          (List.range ((l.toNat + s.chunk - 1) / s.chunk)).map fun i =>
            .read ⟨h, o.toNat + i * s.chunk, min s.chunk (l.toNat - i * s.chunk)⟩ })

/-- 20_memory.md R52: a read request on the SEG port is answered exactly on its precondition, with exactly the bytes
of the content from the request's offset on, first byte first. (That a request outside it has no answer is the model's
choice, log entry 8.) -/
def Obligations.SegReadGivesTheBytes : Prop :=
  ∀ (m : SegSpace) (chunk : Nat) (r : SegRequest),
    (segRead m chunk r = none ↔ ¬ (1 ≤ r.count ∧ r.count ≤ chunk ∧ r.offset + r.count ≤ segLen m r.handle)) ∧
    (∀ bs, segRead m chunk r = some bs →
      bs.length = r.count ∧ ∀ k, k < r.count → bs[k]? = segByte m r.handle (r.offset + k))

/-- 20_memory.md R64, 70_reset_and_hazards.md R197: replacing one buffer's content between commands gives that buffer the
new content, leaves every other buffer and everything else as it was, and keeps the invariant. -/
def Obligations.HostReplacesABuffer : Prop :=
  ∀ (s : State) (h : Byte) (content : List Byte),
    (s.seg.wf = true → segContent (s.setBuffer h content).seg h = content) ∧
    (∀ h', h' ≠ h → ∀ o, segByte (s.setBuffer h content).seg h' o = segByte s.seg h' o) ∧
    s.setBuffer h content = { s with seg := (s.setBuffer h content).seg } ∧
    (s.Inv → (s.setBuffer h content).Inv)

/-- R153, R154, R155: a segmented Update within the content completes for every `CHUNK`, and leaves its unit in exactly
the state the flat Update over the same bytes leaves it; beside the unit only `pc` and the record of the SEG port
change. -/
def Obligations.SegmentedEqualsFlat : Prop :=
  (∀ (s : State) (h : Byte) (o l : Word), 1 ≤ s.chunk → s.sha.active = true → o.toNat + l.toNat ≤ segLen s.seg h →
    ∃ t u, exec (.shaUpdateSeg h o l) s = .next t ∧
      exec (.shaUpdate (((segContent s.seg h).drop o.toNat).take l.toNat)) s = .next u ∧
      t.sha = u.sha ∧ t = { s with sha := t.sha, pc := s.pc + 10, segTrace := t.segTrace }) ∧
  (∀ (s : State) (h : Byte) (o l : Word), 1 ≤ s.chunk → s.hmac.active = true → s.hmac.inner.active = true →
    o.toNat + l.toNat ≤ segLen s.seg h →
    ∃ t u, exec (.hmacUpdateSeg h o l) s = .next t ∧
      exec (.hmacUpdate (((segContent s.seg h).drop o.toNat).take l.toNat)) s = .next u ∧
      t.hmac = u.hmac ∧ t = { s with hmac := t.hmac, pc := s.pc + 10, segTrace := t.segTrace })

/-- R152: a segmented Update that completes made one length query and then `ceil(LEN / CHUNK)` reads, the `i`-th being
`(h, OFFSET + i*CHUNK, min(CHUNK, LEN - i*CHUNK))`, in that order; none when `LEN = 0`. -/
def Obligations.SegRequestSequence : Prop :=
  ∀ (s : State) (h : Byte) (o l : Word), 1 ≤ s.chunk → o.toNat + l.toNat ≤ segLen s.seg h →
    let reads := (List.range ((l.toNat + s.chunk - 1) / s.chunk)).map fun i =>
      SegEvent.read ⟨h, o.toNat + i * s.chunk, min s.chunk (l.toNat - i * s.chunk)⟩
    (s.sha.active = true → ∃ t, exec (.shaUpdateSeg h o l) s = .next t ∧
      t.segTrace = s.segTrace ++ .query h :: reads) ∧
    (s.hmac.active = true → s.hmac.inner.active = true → ∃ t, exec (.hmacUpdateSeg h o l) s = .next t ∧
      t.segTrace = s.segTrace ++ .query h :: reads)

/-- 20_memory.md R52 (U9): no command ever issues a read outside the port's precondition, and none stops on one when
`CHUNK` is at least 1. -/
def Obligations.SegReadsStayInRange : Prop :=
  ∀ (i : Instr) (s : State),
    (1 ≤ s.chunk → exec i s ≠ .fault .segReadOutside) ∧
    ∀ t, exec i s = .next t → ∃ evs, t.segTrace = s.segTrace ++ evs ∧
      ∀ r, .read r ∈ evs → 1 ≤ r.count ∧ r.count ≤ s.chunk ∧ r.offset + r.count ≤ segLen s.seg r.handle

/-- R156: the block never writes to the SEG space and never changes a buffer's length: over every step, each byte reads as
before. That the step of a reset keeps the buffers too is the model's choice (log entry 4). -/
def Obligations.SegSpaceIsReadOnly : Prop :=
  ∀ s t : State, step s = .next t →
    t.seg = s.seg ∧ ∀ (h : Byte), segLen t.seg h = segLen s.seg h ∧ ∀ o, segByte t.seg h o = segByte s.seg h o

/-! ### Frames and independence of the units (spec/10_state.md R37) -/

/-- R37: what the commands of unit SHA leave unchanged when they answer a next state: the HMAC unit, the stream, every
byte of the SEG space, `CHUNK` and RESET; for all but `SHA.FINISH` the output history; for all but the segmented Update
the SEG port's record; and the latch, unless the command faulted. -/
def Obligations.ShaCommandFrame : Prop :=
  ∀ (i : Instr) (s t : State), i.isSha = true → exec i s = .next t →
    t.hmac = s.hmac ∧ t.cmd = s.cmd ∧ t.chunk = s.chunk ∧ t.resetLine = s.resetLine ∧
    (∀ h o, segByte t.seg h o = segByte s.seg h o) ∧
    (i ≠ .shaFinish → t.dout = s.dout) ∧
    ((∀ h o l, i ≠ .shaUpdateSeg h o l) → t.segTrace = s.segTrace) ∧
    ((t.pc = s.pc + i.size ∧ t.faultBit = s.faultBit ∧ t.cause = s.cause ∧ t.finfo = s.finfo) ∨
      (t.pc = s.pc ∧ t.faultBit = true ∧ t.sha = s.sha ∧ t.dout = s.dout))

/-- R37, 42_hmac.md R139: what the commands of unit HMAC leave unchanged when they answer a next state: the engine `SHA`,
the stream, every byte of the SEG space, `CHUNK` and RESET; for all but `HMAC.FINISH` the output history and the engine
OUTER; for all but the segmented Update the SEG port's record; and the latch, unless the command faulted. -/
def Obligations.HmacCommandFrame : Prop :=
  ∀ (i : Instr) (s t : State), i.isSha = false → exec i s = .next t →
    t.sha = s.sha ∧ t.cmd = s.cmd ∧ t.chunk = s.chunk ∧ t.resetLine = s.resetLine ∧
    (∀ h o, segByte t.seg h o = segByte s.seg h o) ∧
    (i ≠ .hmacFinish → t.dout = s.dout ∧ t.hmac.outer = s.hmac.outer) ∧
    ((∀ h o l, i ≠ .hmacUpdateSeg h o l) → t.segTrace = s.segTrace) ∧
    ((t.pc = s.pc + i.size ∧ t.faultBit = s.faultBit ∧ t.cause = s.cause ∧ t.finfo = s.finfo) ∨
      (t.pc = s.pc ∧ t.faultBit = true ∧ t.hmac = s.hmac ∧ t.dout = s.dout))

/-- R37, 43_segmented_update.md R155: what a command of one unit does to that unit, whether it faults and what it emits
depend on that unit and the segmented buffers alone: two states that agree on those, and on nothing else (`CHUNK`, the
other unit, the history and the stream may all differ), give the same. -/
def Obligations.UnitSeesOnlyItself : Prop :=
  ∀ (i : Instr) (s s' t : State), 1 ≤ s.chunk → 1 ≤ s'.chunk → s.seg = s'.seg →
    (if i.isSha then s.sha = s'.sha else s.hmac = s'.hmac) → exec i s = .next t →
    ∃ (t' : State) (emitted : List (List Byte)), exec i s' = .next t' ∧
      (if i.isSha then t.sha = t'.sha else t.hmac = t'.hmac) ∧
      t.dout = s.dout ++ emitted ∧ t'.dout = s'.dout ++ emitted ∧
      t.pc - s.pc = t'.pc - s'.pc ∧
      (s.faultBit = false → s'.faultBit = false → t.faultBit = t'.faultBit)

/-- R37: the commands of the two units may be interleaved in any order: in a run of any list of commands without a fault,
each unit ends as it ends when its own commands run alone, and the records emitted are an interleaving of those the two
lists emit alone. -/
def Obligations.UnitsInterleaveFreely : Prop :=
  ∀ (cs : List Instr) (s t : State), 1 ≤ s.chunk → s.faultBit = false →
    performAll cs s = .next t → t.faultBit = false →
    ∃ (ts th : State) (shaRecords hmacRecords records : List (List Byte)),
      performAll (cs.filter fun i => i.isSha) s = .next ts ∧
      performAll (cs.filter fun i => !i.isSha) s = .next th ∧
      ts.faultBit = false ∧ th.faultBit = false ∧ t.sha = ts.sha ∧ t.hmac = th.hmac ∧
      ts.dout = s.dout ++ shaRecords ∧ th.dout = s.dout ++ hmacRecords ∧ t.dout = s.dout ++ records ∧
      Interleaves shaRecords hmacRecords records

/-! ### Calls and text (spec/30_encoding.md) -/

/-- R85 (a): a flat Update of at most `2^32 - 1` bytes, the empty span included, is one command. A longer one is sent as
commands over consecutive pieces that can all be encoded; that each but the last carries `2^32 - 1` bytes is the model's
choice (log entry 17). For both units: on an active one the commands complete and leave it as one Update of the whole
span would, and INNER's unit keeps its pad and OUTER. -/
def Obligations.LongUpdateIsSplit : Prop :=
  ∀ (data : List Byte), ∃ pieces : List (List Byte),
    (Call.shaUpdate data).commands = some (pieces.map .shaUpdate) ∧
    (Call.hmacUpdate data).commands = some (pieces.map .hmacUpdate) ∧
    (data.length ≤ 2 ^ 32 - 1 → pieces = [data]) ∧
    pieces.flatten = data ∧
    (∀ p ∈ pieces.dropLast, p.length = 2 ^ 32 - 1) ∧ (∀ p ∈ pieces, payloadFits p = true) ∧
    (∀ (s : State) (r : EngineRegs), s.faultBit = false → s.sha = .running r →
      ∃ t, performAll (pieces.map .shaUpdate) s = .next t ∧ t.sha = .running (r.absorb data) ∧ t.faultBit = false) ∧
    (∀ (s : State) (r : EngineRegs) (outer : Engine) (opad : List Byte), s.faultBit = false →
      s.hmac = ⟨.running r, outer, .retained opad⟩ →
      ∃ t, performAll (pieces.map .hmacUpdate) s = .next t ∧
        t.hmac = ⟨.running (r.absorb data), outer, .retained opad⟩ ∧ t.faultBit = false)

/-- R82, R83: what the assembler accepts, and that it is the command written. A line gives the command `i` exactly when
`i` can be encoded and the line's tokens are the mnemonic of `i` and `i`'s operands: nothing for format `N`; for format `P`
a byte expression whose value is the whole payload; for format `S` a handle, an offset and a length whose numbers are
those of `i`, unwrapped. Every other line with a token is an assembly error; so a number that does not fit its field, or
an expression of `2^32` bytes or more, is an error. What follows log entry 14 and not the rules, the model's choice: the
second clause, that a line without tokens (blank or comment only) gives no command and is no error; and in the first,
what `lex`, `numberValue` and `byteItems` take as tokens, numbers and items: the spacing, the case of hex digits, the
number bases of a repetition, `#` and `"` in a string. -/
def Obligations.AssembledCommandsEncodable : Prop :=
  (∀ (line : List Char) (i : Instr), assembleLine line = some (some i) ↔
    i.wf = true ∧ ∃ (row : OpcodeRow) (ts : List Token), row ∈ opcodeMap ∧ row.opcode = i.opcode ∧
      lex .outside [] line = some (.word row.mnemonic.toList :: ts) ∧
      let range (h : Byte) (o l : Word) := ∃ hs os ls : List Char, ts = rangeTokens hs os ls ∧
        numberValue hs = some h.toNat ∧ numberValue os = some o.toNat ∧ numberValue ls = some l.toNat
      match i with
      | .shaStart => ts = []
      | .shaUpdate p => byteItems ts = some p
      | .shaUpdateSeg h o l => range h o l
      | .shaFinish => ts = []
      | .hmacStart key => byteItems ts = some key
      | .hmacUpdate p => byteItems ts = some p
      | .hmacUpdateSeg h o l => range h o l
      | .hmacFinish => ts = []) ∧
  (∀ line : List Char, assembleLine line = some none ↔ lex .outside [] line = some [])

/-- R82: the text of a segmented Update with its three numbers in decimal, or all in `0x` hexadecimal, is that command
when the numbers fit 8, 32 and 32 bits, and an assembly error when one does not; for both units. The spacing is that of
R82's own lines, with one space after the mnemonic; that hex digits `a` to `f` are taken in lower case follows log entry
14. -/
def Obligations.RangeTextAssembles : Prop :=
  ∀ (write : Nat → List Char) (h o l : Nat),
    (write = Nat.toDigits 10 ∨ write = fun n => '0' :: 'x' :: Nat.toDigits 16 n) →
    let operands := " h=".toList ++ write h ++ ", off=".toList ++ write o ++ ", len=".toList ++ write l
    let fits := h < 2 ^ 8 ∧ o < 2 ^ 32 ∧ l < 2 ^ 32
    assembleLine ("SHA.UPDATE_SEG".toList ++ operands) =
      (if fits then some (some (.shaUpdateSeg (BitVec.ofNat 8 h) (BitVec.ofNat 32 o) (BitVec.ofNat 32 l))) else none) ∧
    assembleLine ("HMAC.UPDATE_SEG".toList ++ operands) =
      (if fits then some (some (.hmacUpdateSeg (BitVec.ofNat 8 h) (BitVec.ofNat 32 o) (BitVec.ofNat 32 l))) else none)

/-- R83: what the items of a byte expression are worth. A quoted run of printable ASCII characters is their codes; a
hex-quoted run of digits is the bytes, two digits each; `<byte>*<count>` is the byte repeated, and an error when the byte
does not fit 8 bits or the count is `2^32` or more; items joined by `+` are concatenated. What follows log entry 14, the
model's choice: the two number bases of a repetition, `#` as data in a string, a string without `"` in it, `x` directly
in front of its quote, and the case of hex digits. -/
def Obligations.ByteItemsAreAsWritten : Prop :=
  (∀ (p : List Byte) (rest : List Char), (∀ b ∈ p, 0x20 ≤ b.toNat ∧ b.toNat ≤ 0x7e ∧ b.toNat ≠ 0x22) →
    lex .outside [] ('"' :: p.map (fun b => Char.ofNat b.toNat) ++ '"' :: rest) =
      (lex .outside [] rest).map (.bytes p :: ·)) ∧
  (∀ (p : List Byte) (rest : List Char),
    lex .outside [] ('x' :: '"' :: p.flatMap (fun b => [Nat.digitChar (b.toNat / 16), Nat.digitChar (b.toNat % 16)]) ++
        '"' :: rest) =
      (lex .outside [] rest).map (.bytes p :: ·)) ∧
  (∀ (b n : List Char) (bs : List Byte), byteItems [.word b, .star, .word n] = some bs ↔
    ∃ v k, numberValue b = some v ∧ v < 2 ^ 8 ∧ numberValue n = some k ∧ k < 2 ^ 32 ∧
      bs = List.replicate k (BitVec.ofNat 8 v)) ∧
  (∀ bs : List Byte, byteItems [.bytes bs] = some bs) ∧
  (∀ (ts us : List Token) (bs cs : List Byte), byteItems ts = some bs → byteItems us = some cs →
    byteItems (ts ++ .plus :: us) = some (bs ++ cs))
end

