-- ==== Sys2Proof/Laws/Decode.lean ====
section
/-! SUPPORT. The decoder and the encoder: byte order round trips, what each format's decoder answers, lengths, and that
no two rows of the opcode map share an opcode. -/

namespace Sys2Proof

/-! ### Byte order -/

@[simp] theorem length_be32 (w : Word) : (be32 w).length = 4 := rfl

@[simp] theorem length_be64 (v : Count) : (be64 v).length = 8 := rfl

/-- The word four bytes assemble to, as a number (00_scope.md section 6). -/
theorem unbe32_toNat (s0 s1 s2 s3 : Byte) :
    (unbe32 s0 s1 s2 s3).toNat = s0.toNat * 2 ^ 24 + s1.toNat * 2 ^ 16 + s2.toNat * 2 ^ 8 + s3.toNat := by
  have h1 := s1.isLt
  have h2 := s2.isLt
  have h3 := s3.isLt
  simp only [unbe32, BitVec.toNat_append]
  rw [← Nat.shiftLeft_add_eq_or_of_lt h1, ← Nat.shiftLeft_add_eq_or_of_lt h2, ← Nat.shiftLeft_add_eq_or_of_lt h3]
  simp only [Nat.shiftLeft_eq]
  omega

/-- Assembling the big-endian bytes of a word gives the word. -/
theorem unbe32_of_be32 (w : Word) :
    unbe32 (w.extractLsb' 24 8) (w.extractLsb' 16 8) (w.extractLsb' 8 8) (w.extractLsb' 0 8) = w := by
  apply BitVec.eq_of_toNat_eq
  have := w.isLt
  rw [unbe32_toNat]
  simp only [BitVec.extractLsb'_toNat, Nat.shiftRight_eq_div_pow, Nat.reducePow, Nat.pow_zero, Nat.div_one] at *
  omega

/-- Four bytes are the big-endian bytes of the word they assemble to. -/
theorem be32_unbe32 (s0 s1 s2 s3 : Byte) : be32 (unbe32 s0 s1 s2 s3) = [s0, s1, s2, s3] := by
  have h0 := s0.isLt
  have h1 := s1.isLt
  have h2 := s2.isLt
  have h3 := s3.isLt
  have hn := unbe32_toNat s0 s1 s2 s3
  generalize unbe32 s0 s1 s2 s3 = w at hn
  have e0 : w.extractLsb' 24 8 = s0 := by
    apply BitVec.eq_of_toNat_eq
    rw [BitVec.extractLsb'_toNat, Nat.shiftRight_eq_div_pow, hn]
    omega
  have e1 : w.extractLsb' 16 8 = s1 := by
    apply BitVec.eq_of_toNat_eq
    rw [BitVec.extractLsb'_toNat, Nat.shiftRight_eq_div_pow, hn]
    omega
  have e2 : w.extractLsb' 8 8 = s2 := by
    apply BitVec.eq_of_toNat_eq
    rw [BitVec.extractLsb'_toNat, Nat.shiftRight_eq_div_pow, hn]
    omega
  have e3 : w.extractLsb' 0 8 = s3 := by
    apply BitVec.eq_of_toNat_eq
    rw [BitVec.extractLsb'_toNat, Nat.shiftRight_eq_div_pow, hn]
    omega
  rw [be32, e0, e1, e2, e3]

/-- The four bytes of a word, as the decoders take them apart. -/
theorem be32_eq (w : Word) :
    be32 w = [w.extractLsb' 24 8, w.extractLsb' 16 8, w.extractLsb' 8 8, w.extractLsb' 0 8] := rfl

/-! ### The opcode map -/

/-- No two rows of the opcode map share an opcode byte. -/
theorem opcodeMap_distinct : opcodeMap.Pairwise fun a b => a.opcode ≠ b.opcode := by decide

/-- An instruction's opcode stands in the map. -/
theorem opcode_mem_map (i : Instr) : i.opcode ∈ opcodeMap.map OpcodeRow.opcode := by
  cases i <;> simp [opcodeMap, Instr.opcode]

/-! ### What a format's decoder answers -/

theorem decodePayload_eq_command {mk : List Byte → Instr} {bs : List Byte} {i : Instr} {rest : List Byte} :
    decodePayload mk bs = .command i rest ↔
      ∃ (len : Word) (p : List Byte), p.length = len.toNat ∧ bs = be32 len ++ p ++ rest ∧ i = mk p := by
  constructor
  · intro h
    match bs, h with
    | l0 :: l1 :: l2 :: l3 :: tl, h =>
      simp only [decodePayload] at h
      split at h
      · cases h
      · rename_i hlen
        simp only [Decoded.command.injEq] at h
        refine ⟨unbe32 l0 l1 l2 l3, tl.take (unbe32 l0 l1 l2 l3).toNat, ?_, ?_, h.1.symm⟩
        · rw [List.length_take, Nat.min_eq_left (Nat.le_of_not_lt hlen)]
        · rw [be32_unbe32, ← h.2]; simp
  · rintro ⟨len, p, hp, rfl, rfl⟩
    have hlen : ¬ (p ++ rest).length < p.length := by rw [List.length_append]; omega
    show decodePayload mk (_ :: _ :: _ :: _ :: (p ++ rest)) = _
    rw [decodePayload, unbe32_of_be32]
    simp only [hlen, if_false, ← hp, List.take_left, List.drop_left]

theorem decodeRange_eq_command {mk : Byte → Word → Word → Instr} {bs : List Byte} {i : Instr} {rest : List Byte} :
    decodeRange mk bs = .command i rest ↔
      ∃ (h : Byte) (offset len : Word), bs = h :: be32 offset ++ be32 len ++ rest ∧ i = mk h offset len := by
  constructor
  · intro h
    match bs, h with
    | hd :: o0 :: o1 :: o2 :: o3 :: l0 :: l1 :: l2 :: l3 :: tl, h =>
      simp only [decodeRange, Decoded.command.injEq] at h
      exact ⟨hd, _, _, by rw [be32_unbe32, be32_unbe32, ← h.2]; rfl, h.1.symm⟩
  · rintro ⟨hd, offset, len, rfl, rfl⟩
    simp [be32_eq, decodeRange, unbe32_of_be32]

theorem decodePayload_ne_illegal {mk : List Byte → Instr} {bs : List Byte} {op : Byte} :
    decodePayload mk bs ≠ .illegal op := by
  intro h
  match bs, h with
  | l0 :: l1 :: l2 :: l3 :: tl, h =>
    simp only [decodePayload] at h
    split at h <;> cases h

theorem decodeRange_ne_illegal {mk : Byte → Word → Word → Instr} {bs : List Byte} {op : Byte} :
    decodeRange mk bs ≠ .illegal op := by
  intro h
  unfold decodeRange at h
  split at h <;> cases h

/-! ### Lengths -/

theorem payloadFits_iff {p : List Byte} : payloadFits p = true ↔ p.length < 2 ^ 32 :=
  ⟨fun h => of_decide_eq_true h, fun h => decide_eq_true h⟩

theorem Instr.size_pos (i : Instr) : 0 < i.size := by
  cases i <;> simp [Instr.size]

theorem encodePayload_length (op : Byte) (p : List Byte) : (encodePayload op p).length = 5 + p.length := by
  simp [encodePayload]; omega

theorem encodeRange_length (op h : Byte) (offset len : Word) : (encodeRange op h offset len).length = 10 := by
  simp [encodeRange]

end Sys2Proof
end

