-- ==== Sys2Proof/Laws/Engine.lean ====
section
/-! SUPPORT. The compression function's lengths, the engine procedures and the HMAC procedures: what each can answer. -/

namespace Sys2Proof.Machine

/-! ### Lengths -/

@[simp] theorem length_roundConstants : roundConstants.length = 64 := rfl

@[simp] theorem length_digest (H : Words8) : (digest H).length = 32 := rfl

/-- R114: the engine's Finish gives 32 bytes. -/
@[simp] theorem length_finish (r : EngineRegs) : r.finish.length = 32 := by simp [EngineRegs.finish]

@[simp] theorem length_hashPass (s : List Byte) : (hashPass s).length = 32 := by simp [hashPass]

@[simp] theorem length_xorPad (kn : List Byte) (b : Byte) : (xorPad kn b).length = kn.length := by simp [xorPad]

theorem length_padding (n : Nat) (total : Count) : (padding n total).length = 9 + (119 - n) % 64 := by
  simp [padding, be64]; omega

/-! ### Update -/

@[simp] theorem absorb_nil (r : EngineRegs) : r.absorb [] = r := by
  simp [EngineRegs.absorb]

/-- One pass of the loop leaves the counter alone; only the end of Update advances it. -/
@[simp] theorem absorbByte_total (r : EngineRegs) (b : Byte) : (r.absorbByte b).total = r.total := by
  simp only [EngineRegs.absorbByte]; split <;> rfl

@[simp] theorem foldl_absorbByte_total (r : EngineRegs) (s : List Byte) :
    (s.foldl EngineRegs.absorbByte r).total = r.total := by
  induction s generalizing r with
  | nil => rfl
  | cons b s ih => simp [ih]

/-- The counter after an Update (R111). -/
@[simp] theorem absorb_total (r : EngineRegs) (s : List Byte) :
    (r.absorb s).total = r.total + BitVec.ofNat 64 s.length := rfl

/-- The loop does not look at the counter. -/
theorem absorbByte_withTotal (r : EngineRegs) (t : Count) (b : Byte) :
    ({ r with total := t } : EngineRegs).absorbByte b = { r.absorbByte b with total := t } := by
  simp only [EngineRegs.absorbByte]; split <;> rfl

theorem foldl_absorbByte_withTotal (r : EngineRegs) (t : Count) (s : List Byte) :
    s.foldl EngineRegs.absorbByte { r with total := t } = { s.foldl EngineRegs.absorbByte r with total := t } := by
  induction s generalizing r with
  | nil => rfl
  | cons b s ih => rw [List.foldl_cons, absorbByte_withTotal, ih]; rfl

/-- One pass of the loop keeps the buffer below 64 bytes, and fills it by one or empties it. -/
theorem absorbByte_buf (r : EngineRegs) (b : Byte) (h : r.buf.length < 64) :
    (r.absorbByte b).buf.length = (r.buf.length + 1) % 64 := by
  simp only [EngineRegs.absorbByte, Config.blockBytes, List.length_append, List.length_singleton]
  split
  · rename_i h64; simp [h64]
  · simp; omega

/-- The number of buffered bytes after the loop (R111). -/
theorem foldl_absorbByte_buf (r : EngineRegs) (s : List Byte) (h : r.buf.length < 64) :
    (s.foldl EngineRegs.absorbByte r).buf.length = (r.buf.length + s.length) % 64 := by
  induction s generalizing r with
  | nil => simp [Nat.mod_eq_of_lt h]
  | cons b s ih =>
    rw [List.foldl_cons, ih _ (by rw [absorbByte_buf r b h]; omega), absorbByte_buf r b h]
    simp only [List.length_cons]
    omega

/-! ### What the checked procedures answer -/

theorem Engine.update_eq_some {e e' : Engine} {s : List Byte} :
    e.update s = some e' ↔ ∃ r, e = .running r ∧ e' = .running (r.absorb s) := by
  cases e <;> simp [Engine.update, eq_comm]

theorem Engine.update_eq_none {e : Engine} {s : List Byte} : e.update s = none ↔ e = .idle := by
  cases e <;> simp [Engine.update]

theorem Engine.finish_eq_some {e e' : Engine} {d : List Byte} :
    e.finish = some (d, e') ↔ ∃ r, e = .running r ∧ d = r.finish ∧ e' = .idle := by
  cases e <;> simp [Engine.finish, eq_comm]

theorem Engine.finish_eq_none {e : Engine} : e.finish = none ↔ e = .idle := by
  cases e <;> simp [Engine.finish]

theorem Engine.active_iff {e : Engine} : e.active = true ↔ ∃ r, e = .running r := by
  cases e <;> simp [Engine.active]

theorem HmacUnit.active_iff {u : HmacUnit} : u.active = true ↔ ∃ opad, u.pad = .retained opad := by
  unfold HmacUnit.active
  cases u.pad <;> simp

theorem HmacUnit.update_eq_some {u u' : HmacUnit} {s : List Byte} :
    u.update s = some u' ↔
      ∃ opad r, u.pad = .retained opad ∧ u.inner = .running r ∧ u' = { u with inner := .running (r.absorb s) } := by
  obtain ⟨inner, outer, pad⟩ := u
  cases pad <;> cases inner <;> simp [HmacUnit.update, Engine.update, eq_comm]

theorem HmacUnit.finish_eq_some {u u' : HmacUnit} {t : List Byte} :
    u.finish = some (t, u') ↔
      ∃ opad r, u.pad = .retained opad ∧ u.inner = .running r ∧
        t = ((EngineRegs.start.absorb opad).absorb r.finish).finish ∧ u' = ⟨.idle, .idle, .idle⟩ := by
  obtain ⟨inner, outer, pad⟩ := u
  cases pad <;> cases inner <;> simp [HmacUnit.finish, Engine.finish, eq_comm]

end Sys2Proof.Machine
end

