-- ==== Sys2Proof/Laws/State.lean ====
section
/-! SUPPORT. What each named update of the state does to each field: one lemma per field per update, true by rfl. -/

namespace Sys2Proof.Machine

variable (s : State)

/-! ### setSha -/

@[simp] theorem State.setSha_sha (e : Engine) : (s.setSha e).sha = e := rfl
@[simp] theorem State.setSha_hmac (e : Engine) : (s.setSha e).hmac = s.hmac := rfl
@[simp] theorem State.setSha_faultBit (e : Engine) : (s.setSha e).faultBit = s.faultBit := rfl
@[simp] theorem State.setSha_cause (e : Engine) : (s.setSha e).cause = s.cause := rfl
@[simp] theorem State.setSha_finfo (e : Engine) : (s.setSha e).finfo = s.finfo := rfl
@[simp] theorem State.setSha_pc (e : Engine) : (s.setSha e).pc = s.pc := rfl
@[simp] theorem State.setSha_cmd (e : Engine) : (s.setSha e).cmd = s.cmd := rfl
@[simp] theorem State.setSha_dout (e : Engine) : (s.setSha e).dout = s.dout := rfl
@[simp] theorem State.setSha_seg (e : Engine) : (s.setSha e).seg = s.seg := rfl
@[simp] theorem State.setSha_chunk (e : Engine) : (s.setSha e).chunk = s.chunk := rfl
@[simp] theorem State.setSha_resetLine (e : Engine) : (s.setSha e).resetLine = s.resetLine := rfl
@[simp] theorem State.setSha_segTrace (e : Engine) : (s.setSha e).segTrace = s.segTrace := rfl

/-! ### setHmac -/

@[simp] theorem State.setHmac_sha (u : HmacUnit) : (s.setHmac u).sha = s.sha := rfl
@[simp] theorem State.setHmac_hmac (u : HmacUnit) : (s.setHmac u).hmac = u := rfl
@[simp] theorem State.setHmac_faultBit (u : HmacUnit) : (s.setHmac u).faultBit = s.faultBit := rfl
@[simp] theorem State.setHmac_cause (u : HmacUnit) : (s.setHmac u).cause = s.cause := rfl
@[simp] theorem State.setHmac_finfo (u : HmacUnit) : (s.setHmac u).finfo = s.finfo := rfl
@[simp] theorem State.setHmac_pc (u : HmacUnit) : (s.setHmac u).pc = s.pc := rfl
@[simp] theorem State.setHmac_cmd (u : HmacUnit) : (s.setHmac u).cmd = s.cmd := rfl
@[simp] theorem State.setHmac_dout (u : HmacUnit) : (s.setHmac u).dout = s.dout := rfl
@[simp] theorem State.setHmac_seg (u : HmacUnit) : (s.setHmac u).seg = s.seg := rfl
@[simp] theorem State.setHmac_chunk (u : HmacUnit) : (s.setHmac u).chunk = s.chunk := rfl
@[simp] theorem State.setHmac_resetLine (u : HmacUnit) : (s.setHmac u).resetLine = s.resetLine := rfl
@[simp] theorem State.setHmac_segTrace (u : HmacUnit) : (s.setHmac u).segTrace = s.segTrace := rfl

/-! ### doutWrite -/

@[simp] theorem State.doutWrite_sha (v : List Byte) : (s.doutWrite v).sha = s.sha := rfl
@[simp] theorem State.doutWrite_hmac (v : List Byte) : (s.doutWrite v).hmac = s.hmac := rfl
@[simp] theorem State.doutWrite_faultBit (v : List Byte) : (s.doutWrite v).faultBit = s.faultBit := rfl
@[simp] theorem State.doutWrite_cause (v : List Byte) : (s.doutWrite v).cause = s.cause := rfl
@[simp] theorem State.doutWrite_finfo (v : List Byte) : (s.doutWrite v).finfo = s.finfo := rfl
@[simp] theorem State.doutWrite_pc (v : List Byte) : (s.doutWrite v).pc = s.pc := rfl
@[simp] theorem State.doutWrite_cmd (v : List Byte) : (s.doutWrite v).cmd = s.cmd := rfl
@[simp] theorem State.doutWrite_dout (v : List Byte) : (s.doutWrite v).dout = s.dout ++ [v] := rfl
@[simp] theorem State.doutWrite_seg (v : List Byte) : (s.doutWrite v).seg = s.seg := rfl
@[simp] theorem State.doutWrite_chunk (v : List Byte) : (s.doutWrite v).chunk = s.chunk := rfl
@[simp] theorem State.doutWrite_resetLine (v : List Byte) : (s.doutWrite v).resetLine = s.resetLine := rfl
@[simp] theorem State.doutWrite_segTrace (v : List Byte) : (s.doutWrite v).segTrace = s.segTrace := rfl

/-! ### advance -/

@[simp] theorem State.advance_sha (n : Nat) : (s.advance n).sha = s.sha := rfl
@[simp] theorem State.advance_hmac (n : Nat) : (s.advance n).hmac = s.hmac := rfl
@[simp] theorem State.advance_faultBit (n : Nat) : (s.advance n).faultBit = s.faultBit := rfl
@[simp] theorem State.advance_cause (n : Nat) : (s.advance n).cause = s.cause := rfl
@[simp] theorem State.advance_finfo (n : Nat) : (s.advance n).finfo = s.finfo := rfl
@[simp] theorem State.advance_pc (n : Nat) : (s.advance n).pc = s.pc + n := rfl
@[simp] theorem State.advance_cmd (n : Nat) : (s.advance n).cmd = s.cmd := rfl
@[simp] theorem State.advance_dout (n : Nat) : (s.advance n).dout = s.dout := rfl
@[simp] theorem State.advance_seg (n : Nat) : (s.advance n).seg = s.seg := rfl
@[simp] theorem State.advance_chunk (n : Nat) : (s.advance n).chunk = s.chunk := rfl
@[simp] theorem State.advance_resetLine (n : Nat) : (s.advance n).resetLine = s.resetLine := rfl
@[simp] theorem State.advance_segTrace (n : Nat) : (s.advance n).segTrace = s.segTrace := rfl

/-! ### logSeg -/

@[simp] theorem State.logSeg_sha (evs : List SegEvent) : (s.logSeg evs).sha = s.sha := rfl
@[simp] theorem State.logSeg_hmac (evs : List SegEvent) : (s.logSeg evs).hmac = s.hmac := rfl
@[simp] theorem State.logSeg_faultBit (evs : List SegEvent) : (s.logSeg evs).faultBit = s.faultBit := rfl
@[simp] theorem State.logSeg_cause (evs : List SegEvent) : (s.logSeg evs).cause = s.cause := rfl
@[simp] theorem State.logSeg_finfo (evs : List SegEvent) : (s.logSeg evs).finfo = s.finfo := rfl
@[simp] theorem State.logSeg_pc (evs : List SegEvent) : (s.logSeg evs).pc = s.pc := rfl
@[simp] theorem State.logSeg_cmd (evs : List SegEvent) : (s.logSeg evs).cmd = s.cmd := rfl
@[simp] theorem State.logSeg_dout (evs : List SegEvent) : (s.logSeg evs).dout = s.dout := rfl
@[simp] theorem State.logSeg_seg (evs : List SegEvent) : (s.logSeg evs).seg = s.seg := rfl
@[simp] theorem State.logSeg_chunk (evs : List SegEvent) : (s.logSeg evs).chunk = s.chunk := rfl
@[simp] theorem State.logSeg_resetLine (evs : List SegEvent) : (s.logSeg evs).resetLine = s.resetLine := rfl
@[simp] theorem State.logSeg_segTrace (evs : List SegEvent) : (s.logSeg evs).segTrace = s.segTrace ++ evs := rfl

/-! ### raiseFault -/

@[simp] theorem State.raiseFault_sha (c : FaultCause) (op : Byte) : (s.raiseFault c op).sha = s.sha := rfl
@[simp] theorem State.raiseFault_hmac (c : FaultCause) (op : Byte) : (s.raiseFault c op).hmac = s.hmac := rfl
@[simp] theorem State.raiseFault_faultBit (c : FaultCause) (op : Byte) : (s.raiseFault c op).faultBit = true := rfl
@[simp] theorem State.raiseFault_cause (c : FaultCause) (op : Byte) : (s.raiseFault c op).cause = c.code := rfl
@[simp] theorem State.raiseFault_finfo (c : FaultCause) (op : Byte) : (s.raiseFault c op).finfo = op := rfl
@[simp] theorem State.raiseFault_pc (c : FaultCause) (op : Byte) : (s.raiseFault c op).pc = s.pc := rfl
@[simp] theorem State.raiseFault_cmd (c : FaultCause) (op : Byte) : (s.raiseFault c op).cmd = s.cmd := rfl
@[simp] theorem State.raiseFault_dout (c : FaultCause) (op : Byte) : (s.raiseFault c op).dout = s.dout := rfl
@[simp] theorem State.raiseFault_seg (c : FaultCause) (op : Byte) : (s.raiseFault c op).seg = s.seg := rfl
@[simp] theorem State.raiseFault_chunk (c : FaultCause) (op : Byte) : (s.raiseFault c op).chunk = s.chunk := rfl
@[simp] theorem State.raiseFault_resetLine (c : FaultCause) (op : Byte) : (s.raiseFault c op).resetLine = s.resetLine := rfl
@[simp] theorem State.raiseFault_segTrace (c : FaultCause) (op : Byte) : (s.raiseFault c op).segTrace = s.segTrace := rfl

/-! ### applyReset -/

@[simp] theorem State.applyReset_sha : (s.applyReset).sha = .idle := rfl
@[simp] theorem State.applyReset_hmac : (s.applyReset).hmac = ⟨.idle, .idle, .idle⟩ := rfl
@[simp] theorem State.applyReset_faultBit : (s.applyReset).faultBit = false := rfl
@[simp] theorem State.applyReset_cause : (s.applyReset).cause = 0 := rfl
@[simp] theorem State.applyReset_finfo : (s.applyReset).finfo = 0 := rfl
@[simp] theorem State.applyReset_pc : (s.applyReset).pc = 0 := rfl
@[simp] theorem State.applyReset_cmd : (s.applyReset).cmd = [] := rfl
@[simp] theorem State.applyReset_dout : (s.applyReset).dout = s.dout := rfl
@[simp] theorem State.applyReset_seg : (s.applyReset).seg = s.seg := rfl
@[simp] theorem State.applyReset_chunk : (s.applyReset).chunk = s.chunk := rfl
@[simp] theorem State.applyReset_resetLine : (s.applyReset).resetLine = false := rfl
@[simp] theorem State.applyReset_segTrace : (s.applyReset).segTrace = s.segTrace := rfl

/-! ### send -/

@[simp] theorem State.send_sha (bs : List Byte) : (s.send bs).sha = s.sha := rfl
@[simp] theorem State.send_hmac (bs : List Byte) : (s.send bs).hmac = s.hmac := rfl
@[simp] theorem State.send_faultBit (bs : List Byte) : (s.send bs).faultBit = s.faultBit := rfl
@[simp] theorem State.send_cause (bs : List Byte) : (s.send bs).cause = s.cause := rfl
@[simp] theorem State.send_finfo (bs : List Byte) : (s.send bs).finfo = s.finfo := rfl
@[simp] theorem State.send_pc (bs : List Byte) : (s.send bs).pc = s.pc := rfl
@[simp] theorem State.send_cmd (bs : List Byte) : (s.send bs).cmd = s.cmd ++ bs := rfl
@[simp] theorem State.send_dout (bs : List Byte) : (s.send bs).dout = s.dout := rfl
@[simp] theorem State.send_seg (bs : List Byte) : (s.send bs).seg = s.seg := rfl
@[simp] theorem State.send_chunk (bs : List Byte) : (s.send bs).chunk = s.chunk := rfl
@[simp] theorem State.send_resetLine (bs : List Byte) : (s.send bs).resetLine = s.resetLine := rfl
@[simp] theorem State.send_segTrace (bs : List Byte) : (s.send bs).segTrace = s.segTrace := rfl

/-! ### assertReset -/

@[simp] theorem State.assertReset_sha : (s.assertReset).sha = s.sha := rfl
@[simp] theorem State.assertReset_hmac : (s.assertReset).hmac = s.hmac := rfl
@[simp] theorem State.assertReset_faultBit : (s.assertReset).faultBit = s.faultBit := rfl
@[simp] theorem State.assertReset_cause : (s.assertReset).cause = s.cause := rfl
@[simp] theorem State.assertReset_finfo : (s.assertReset).finfo = s.finfo := rfl
@[simp] theorem State.assertReset_pc : (s.assertReset).pc = s.pc := rfl
@[simp] theorem State.assertReset_cmd : (s.assertReset).cmd = s.cmd := rfl
@[simp] theorem State.assertReset_dout : (s.assertReset).dout = s.dout := rfl
@[simp] theorem State.assertReset_seg : (s.assertReset).seg = s.seg := rfl
@[simp] theorem State.assertReset_chunk : (s.assertReset).chunk = s.chunk := rfl
@[simp] theorem State.assertReset_resetLine : (s.assertReset).resetLine = true := rfl
@[simp] theorem State.assertReset_segTrace : (s.assertReset).segTrace = s.segTrace := rfl

/-! ### setBuffer -/

@[simp] theorem State.setBuffer_sha (h : Byte) (c : List Byte) : (s.setBuffer h c).sha = s.sha := rfl
@[simp] theorem State.setBuffer_hmac (h : Byte) (c : List Byte) : (s.setBuffer h c).hmac = s.hmac := rfl
@[simp] theorem State.setBuffer_faultBit (h : Byte) (c : List Byte) : (s.setBuffer h c).faultBit = s.faultBit := rfl
@[simp] theorem State.setBuffer_cause (h : Byte) (c : List Byte) : (s.setBuffer h c).cause = s.cause := rfl
@[simp] theorem State.setBuffer_finfo (h : Byte) (c : List Byte) : (s.setBuffer h c).finfo = s.finfo := rfl
@[simp] theorem State.setBuffer_pc (h : Byte) (c : List Byte) : (s.setBuffer h c).pc = s.pc := rfl
@[simp] theorem State.setBuffer_cmd (h : Byte) (c : List Byte) : (s.setBuffer h c).cmd = s.cmd := rfl
@[simp] theorem State.setBuffer_dout (h : Byte) (c : List Byte) : (s.setBuffer h c).dout = s.dout := rfl
@[simp] theorem State.setBuffer_seg (h : Byte) (c : List Byte) : (s.setBuffer h c).seg = segPut s.seg h.toNat c := rfl
@[simp] theorem State.setBuffer_chunk (h : Byte) (c : List Byte) : (s.setBuffer h c).chunk = s.chunk := rfl
@[simp] theorem State.setBuffer_resetLine (h : Byte) (c : List Byte) : (s.setBuffer h c).resetLine = s.resetLine := rfl
@[simp] theorem State.setBuffer_segTrace (h : Byte) (c : List Byte) : (s.setBuffer h c).segTrace = s.segTrace := rfl

/-! ### placeAtPc -/

@[simp] theorem State.placeAtPc_sha (bs : List Byte) : (s.placeAtPc bs).sha = s.sha := rfl
@[simp] theorem State.placeAtPc_hmac (bs : List Byte) : (s.placeAtPc bs).hmac = s.hmac := rfl
@[simp] theorem State.placeAtPc_faultBit (bs : List Byte) : (s.placeAtPc bs).faultBit = s.faultBit := rfl
@[simp] theorem State.placeAtPc_cause (bs : List Byte) : (s.placeAtPc bs).cause = s.cause := rfl
@[simp] theorem State.placeAtPc_finfo (bs : List Byte) : (s.placeAtPc bs).finfo = s.finfo := rfl
@[simp] theorem State.placeAtPc_pc (bs : List Byte) : (s.placeAtPc bs).pc = s.pc := rfl
@[simp] theorem State.placeAtPc_cmd (bs : List Byte) : (s.placeAtPc bs).cmd = s.cmd.take s.pc ++ List.replicate (s.pc - s.cmd.length) 0 ++ bs := rfl
@[simp] theorem State.placeAtPc_dout (bs : List Byte) : (s.placeAtPc bs).dout = s.dout := rfl
@[simp] theorem State.placeAtPc_seg (bs : List Byte) : (s.placeAtPc bs).seg = s.seg := rfl
@[simp] theorem State.placeAtPc_chunk (bs : List Byte) : (s.placeAtPc bs).chunk = s.chunk := rfl
@[simp] theorem State.placeAtPc_resetLine (bs : List Byte) : (s.placeAtPc bs).resetLine = s.resetLine := rfl
@[simp] theorem State.placeAtPc_segTrace (bs : List Byte) : (s.placeAtPc bs).segTrace = s.segTrace := rfl

end Sys2Proof.Machine
end

