-- ==== Sys2Proof/Laws/Memory.lean ====
section
/-! SUPPORT. The SEG space: the canonical form is kept by the one operation that writes it (the host's), what is read
after a replacement, and what a read gives. -/

namespace Sys2Proof.Machine

theorem SegSpace.wf_iff (m : SegSpace) :
    m.wf = true ↔ (m.map Prod.fst).Pairwise (· < ·) ∧ ∀ kc ∈ m, kc.1 < 256 ∧ kc.2 ≠ [] := by
  simp [SegSpace.wf]

theorem reset_seg_wf : State.reset.seg.wf = true := by decide

/-- The handles listed after a replacement are the handle written or handles listed before. -/
theorem mem_segPut {m : SegSpace} {k : Nat} {c : List Byte} {x : Nat × List Byte} (h : x ∈ segPut m k c) :
    (x = (k, c) ∧ c ≠ []) ∨ x ∈ m := by
  induction m with
  | nil =>
    by_cases hc : c = [] <;> simp_all [segPut]
  | cons kc m ih =>
    obtain ⟨k', c'⟩ := kc
    simp only [segPut] at h
    split at h
    · split at h
      · exact .inr h
      · rcases List.mem_cons.mp h with h | h
        · exact .inl ⟨h, ‹_›⟩
        · exact .inr h
    · split at h
      · split at h
        · exact .inr (List.mem_cons_of_mem _ h)
        · rcases List.mem_cons.mp h with h | h
          · exact .inl ⟨h, ‹_›⟩
          · exact .inr (List.mem_cons_of_mem _ h)
      · rcases List.mem_cons.mp h with h | h
        · exact .inr (h ▸ List.mem_cons_self)
        · exact (ih h).imp id (List.mem_cons_of_mem _)

/-- A replacement keeps the handles strictly rising. -/
theorem segPut_sorted {m : SegSpace} {k : Nat} {c : List Byte} (h : (m.map Prod.fst).Pairwise (· < ·)) :
    ((segPut m k c).map Prod.fst).Pairwise (· < ·) := by
  induction m with
  | nil => by_cases hc : c = [] <;> simp [segPut, hc]
  | cons kc m ih =>
    obtain ⟨k', c'⟩ := kc
    simp only [List.map_cons, List.pairwise_cons, List.mem_map, forall_exists_index, and_imp,
      forall_apply_eq_imp_iff₂] at h
    obtain ⟨hk', hm⟩ := h
    simp only [segPut]
    split
    · split
      · simpa [hm] using hk'
      · simp only [List.map_cons, List.pairwise_cons, List.mem_cons, List.mem_map, forall_eq_or_imp,
          forall_exists_index, and_imp, forall_apply_eq_imp_iff₂]
        exact ⟨⟨‹_›, fun a ha => lt_trans ‹_› (hk' a ha)⟩, hk', hm⟩
    · split
      · split
        · exact hm
        · subst k
          simpa [hm] using hk'
      · simp only [List.map_cons, List.pairwise_cons, List.mem_map, forall_exists_index, and_imp,
          forall_apply_eq_imp_iff₂]
        refine ⟨fun a ha => ?_, ih hm⟩
        rcases mem_segPut ha with ⟨rfl, -⟩ | ha
        · simp only; omega
        · exact hk' a ha

/-- The one operation that writes the SEG space keeps its canonical form. -/
theorem segPut_wf {m : SegSpace} {k : Nat} {c : List Byte} (hk : k < 256) (h : m.wf = true) :
    (segPut m k c).wf = true := by
  rw [SegSpace.wf_iff] at h ⊢
  refine ⟨segPut_sorted h.1, fun x hx => ?_⟩
  rcases mem_segPut hx with ⟨rfl, hc⟩ | hx
  · exact ⟨hk, hc⟩
  · exact h.2 x hx

theorem setBuffer_seg_wf {s : State} (b : Byte) (c : List Byte) (h : s.seg.wf = true) :
    (s.setBuffer b c).seg.wf = true :=
  segPut_wf b.isLt h

/-- An unlisted handle reads as the empty buffer. -/
theorem segContent_eq_nil_of_lt {m : SegSpace} {h : Byte} (hlt : ∀ kc ∈ m, h.toNat < kc.1) : segContent m h = [] := by
  induction m with
  | nil => rfl
  | cons kc m ih =>
    obtain ⟨k', c'⟩ := kc
    have h1 := hlt _ List.mem_cons_self
    simp only at h1
    simp only [segContent, show ¬ k' = h.toNat by omega, if_false]
    exact ih fun kc hkc => hlt kc (List.mem_cons_of_mem _ hkc)

/-- Read after write: the buffer written holds the new content. -/
theorem segContent_segPut_same {m : SegSpace} (h : Byte) (c : List Byte) (hm : (m.map Prod.fst).Pairwise (· < ·)) :
    segContent (segPut m h.toNat c) h = c := by
  induction m with
  | nil => by_cases hc : c = [] <;> simp [segPut, segContent, hc]
  | cons kc m ih =>
    obtain ⟨k', c'⟩ := kc
    simp only [List.map_cons, List.pairwise_cons, List.mem_map, forall_exists_index, and_imp,
      forall_apply_eq_imp_iff₂] at hm
    obtain ⟨hk', hm⟩ := hm
    simp only [segPut]
    split
    · split
      · rename_i hlt hc
        rw [hc]
        apply segContent_eq_nil_of_lt
        intro kc hkc
        rcases List.mem_cons.mp hkc with rfl | hkc
        · exact hlt
        · exact lt_trans hlt (hk' kc hkc)
      · simp [segContent]
    · split
      · split
        · rename_i _ heq hc
          rw [hc]
          exact segContent_eq_nil_of_lt fun kc hkc => heq ▸ hk' kc hkc
        · simp [segContent]
      · rename_i hne
        simp only [segContent, show ¬ k' = h.toNat from fun e => hne e.symm, if_false]
        exact ih hm

/-- Read after write: every other buffer is unchanged. -/
theorem segContent_segPut_other {m : SegSpace} {h : Byte} {k : Nat} (c : List Byte) (hne : k ≠ h.toNat) :
    segContent (segPut m k c) h = segContent m h := by
  induction m with
  | nil => by_cases hc : c = [] <;> simp [segPut, segContent, hc, hne]
  | cons kc m ih =>
    obtain ⟨k', c'⟩ := kc
    simp only [segPut]
    split
    · split <;> simp [segContent, hne]
    · split
      · subst k
        split <;> simp [segContent, hne]
      · simp only [segContent, ih]

/-- `SegRead` on its precondition (20_memory.md R52). -/
theorem segRead_eq_some {m : SegSpace} {chunk : Nat} {r : SegRequest} {bs : List Byte} :
    segRead m chunk r = some bs ↔
      (1 ≤ r.count ∧ r.count ≤ chunk ∧ r.offset + r.count ≤ segLen m r.handle) ∧
        bs = ((segContent m r.handle).drop r.offset).take r.count := by
  unfold segRead
  split <;> simp_all [eq_comm]

end Sys2Proof.Machine
end

