-- ==== Sys2Proof/Laws/PerInstr.lean ====
section
/-! SUPPORT. A law of the encoding, instruction by instruction: every command begins with its own opcode byte and is as
long as 30_encoding.md R74 says. -/

namespace Sys2Proof.Laws.EncodeShape

/-- The first byte of an instruction's encoding is its opcode, and the encoding has the instruction's size. -/
def Statement (i : Instr) : Prop := (encode i).head? = some i.opcode ∧ (encode i).length = i.size

theorem shaStart : Statement .shaStart := ⟨rfl, rfl⟩

theorem shaUpdate (payload : List Byte) : Statement (.shaUpdate payload) :=
  ⟨rfl, encodePayload_length _ _⟩

theorem shaUpdateSeg (handle : Byte) (offset len : Word) : Statement (.shaUpdateSeg handle offset len) :=
  ⟨rfl, encodeRange_length _ _ _ _⟩

theorem shaFinish : Statement .shaFinish := ⟨rfl, rfl⟩

theorem hmacStart (key : List Byte) : Statement (.hmacStart key) :=
  ⟨rfl, encodePayload_length _ _⟩

theorem hmacUpdate (payload : List Byte) : Statement (.hmacUpdate payload) :=
  ⟨rfl, encodePayload_length _ _⟩

theorem hmacUpdateSeg (handle : Byte) (offset len : Word) : Statement (.hmacUpdateSeg handle offset len) :=
  ⟨rfl, encodeRange_length _ _ _ _⟩

theorem hmacFinish : Statement .hmacFinish := ⟨rfl, rfl⟩

end Sys2Proof.Laws.EncodeShape
end

