-- ==== Sys2Proof/Laws/Exec.lean ====
section
/-! SUPPORT. What the shared operations, the commands and a step can answer: the cases every statement about a next
state is proved from. -/

namespace Sys2Proof.Machine

/-! ### The segmented Update -/

/-- How the loop of R152 ends when it ends well: every request was read, and each chunk absorbed in turn. -/
theorem segFeed_done_cons {U : Type} {update : U → List Byte → Option U} {m : SegSpace} {chunk : Nat}
    {r : SegRequest} {rs : List SegRequest} {u u' : U} :
    segFeed update m chunk (r :: rs) u = .done u' ↔
      ∃ scratch u1, segRead m chunk r = some scratch ∧ update u scratch = some u1 ∧
        segFeed update m chunk rs u1 = .done u' := by
  rw [segFeed]
  split
  · simp_all
  · rename_i scratch hs
    split
    · simp_all
    · simp_all

/-- What the segmented Update answers, in full. -/
theorem segUpdate_cases {U : Type} (active : Bool) (update : U → List Byte → Option U) (u : U)
    (put : State → U → State) (i : Instr) (h : Byte) (offset len : Word) (s : State) :
    (active = false ∧ segUpdate active update u put i h offset len s = trap .notStarted i s) ∨
    (active = true ∧ segLen s.seg h < offset.toNat + len.toNat ∧
      segUpdate active update u put i h offset len s = trap .segRange i (s.logSeg [.query h])) ∨
    (active = true ∧ offset.toNat + len.toNat ≤ segLen s.seg h ∧
      ((∃ u', segFeed update s.seg s.chunk (rangeRequests h s.chunk offset len) u = .done u' ∧
          segUpdate active update u put i h offset len s =
            complete i (put ((s.logSeg [.query h]).logSeg ((rangeRequests h s.chunk offset len).map .read)) u')) ∨
        (segFeed update s.seg s.chunk (rangeRequests h s.chunk offset len) u = .notStarted ∧
          segUpdate active update u put i h offset len s = trap .notStarted i (s.logSeg [.query h])) ∨
        (segFeed update s.seg s.chunk (rangeRequests h s.chunk offset len) u = .outside ∧
          segUpdate active update u put i h offset len s = .fault .segReadOutside))) := by
  cases active
  · exact .inl ⟨rfl, rfl⟩
  · refine .inr ?_
    by_cases hr : offset.toNat + len.toNat ≤ segLen s.seg h
    · refine .inr ⟨rfl, hr, ?_⟩
      have hf : rangeFits s.seg h offset len = true := decide_eq_true hr
      simp only [segUpdate, hf, if_true]
      cases hfeed : segFeed update s.seg s.chunk (rangeRequests h s.chunk offset len) u with
      | done u' => exact .inl ⟨u', rfl, by simp⟩
      | notStarted => exact .inr (.inl ⟨rfl, by simp⟩)
      | outside => exact .inr (.inr ⟨rfl, by simp⟩)
    · refine .inl ⟨rfl, by omega, ?_⟩
      have hf : rangeFits s.seg h offset len = false := decide_eq_false hr
      simp [segUpdate, hf]

/-! ### Commands -/

/-- What a command of unit SHA or HMAC can answer, in full: it completes with the unit it addresses written, at most one
record emitted and the SEG port's record extended; or it takes a fault and nothing else; or a read request fell outside
the port's precondition. -/
theorem exec_cases (i : Instr) (s : State) :
    (∃ t : State, exec i s = .next t ∧ t.pc = s.pc + i.size ∧ t.faultBit = s.faultBit ∧ t.cause = s.cause ∧
      t.finfo = s.finfo ∧ t.cmd = s.cmd ∧ t.seg = s.seg ∧ t.chunk = s.chunk ∧ t.resetLine = s.resetLine ∧
      (i.isSha = true → t.hmac = s.hmac) ∧ (i.isSha = false → t.sha = s.sha) ∧
      (t.dout = s.dout ∨ ∃ v, v.length = 32 ∧ t.dout = s.dout ++ [v])) ∨
    (∃ c evs, exec i s = trap c i (s.logSeg evs) ∧ (evs = [] ∨ ∃ h, evs = [.query h])) ∨
    exec i s = .fault .segReadOutside := by
  have trapped : ∀ c, (∃ c' evs, trap c i s = trap c' i (s.logSeg evs) ∧ (evs = [] ∨ ∃ h, evs = [.query h])) :=
    fun c => ⟨c, [], by simp [State.logSeg], by simp⟩
  cases i with
  | shaStart => exact .inl ⟨_, rfl, by simp [Instr.isSha]⟩
  | shaUpdate p =>
    simp only [exec, execShaUpdate]
    split
    · exact .inr (.inl (trapped _))
    · exact .inl ⟨_, rfl, by simp [Instr.isSha]⟩
  | shaUpdateSeg h o l =>
    simp only [exec, execShaUpdateSeg]
    rcases segUpdate_cases s.sha.active Engine.update s.sha State.setSha (.shaUpdateSeg h o l) h o l s with
      ⟨-, e⟩ | ⟨-, -, e⟩ | ⟨-, -, ⟨u', -, e⟩ | ⟨-, e⟩ | ⟨-, e⟩⟩
    · exact .inr (.inl (e ▸ trapped _))
    · exact .inr (.inl ⟨_, _, e, by simp⟩)
    · exact .inl ⟨_, e, by simp [Instr.isSha]⟩
    · exact .inr (.inl ⟨_, _, e, by simp⟩)
    · exact .inr (.inr e)
  | shaFinish =>
    simp only [exec, execShaFinish]
    split
    · exact .inr (.inl (trapped _))
    · rename_i d e hf
      obtain ⟨r, -, rfl, -⟩ := Engine.finish_eq_some.mp hf
      exact .inl ⟨_, rfl, by simp [Instr.isSha]⟩
  | hmacStart key => exact .inl ⟨_, rfl, by simp [Instr.isSha]⟩
  | hmacUpdate p =>
    simp only [exec, execHmacUpdate]
    split
    · exact .inr (.inl (trapped _))
    · exact .inl ⟨_, rfl, by simp [Instr.isSha]⟩
  | hmacUpdateSeg h o l =>
    simp only [exec, execHmacUpdateSeg]
    rcases segUpdate_cases s.hmac.active HmacUnit.update s.hmac State.setHmac (.hmacUpdateSeg h o l) h o l s with
      ⟨-, e⟩ | ⟨-, -, e⟩ | ⟨-, -, ⟨u', -, e⟩ | ⟨-, e⟩ | ⟨-, e⟩⟩
    · exact .inr (.inl (e ▸ trapped _))
    · exact .inr (.inl ⟨_, _, e, by simp⟩)
    · exact .inl ⟨_, e, by simp [Instr.isSha]⟩
    · exact .inr (.inl ⟨_, _, e, by simp⟩)
    · exact .inr (.inr e)
  | hmacFinish =>
    simp only [exec, execHmacFinish]
    split
    · exact .inr (.inl (trapped _))
    · rename_i d e hf
      obtain ⟨opad, r, -, -, rfl, -⟩ := HmacUnit.finish_eq_some.mp hf
      exact .inl ⟨_, rfl, by simp [Instr.isSha]⟩

/-! ### A step -/

/-- What a step that answers a next state did: the reset event, one command, or an illegal opcode's fault. -/
theorem step_cases {s t : State} (h : step s = .next t) :
    (s.resetLine = true ∧ t = s.applyReset) ∨
    (s.resetLine = false ∧ s.faultBit = false ∧
      ((∃ i rest, s.fetch = .command i rest ∧ exec i s = .next t) ∨
        ∃ op, s.fetch = .illegal op ∧ t = s.raiseFault .illegalCmd op)) := by
  unfold step at h
  split at h
  · exact .inl ⟨‹_›, by simpa using h.symm⟩
  · split at h
    · cases h
    · refine .inr ⟨by simpa using ‹¬ s.resetLine = true›, by simpa using ‹¬ s.faultBit = true›, ?_⟩
      split at h
      · exact .inl ⟨_, _, ‹_›, h⟩
      · exact .inr ⟨_, ‹_›, by simpa [illegalCommand] using h.symm⟩
      · cases h
      · cases h

end Sys2Proof.Machine
end

