-- ==== Sys2Proof/Laws/Text.lean ====
section
/-! SUPPORT. What the assembler's operand functions can answer (30_encoding.md R82, R83). -/

namespace Sys2Proof.Machine

/-- A number that fits its field, and nothing else. -/
theorem fieldValue_eq_some {lim n : Nat} {cs : List Char} : fieldValue lim cs = some n ↔ numberValue cs = some n ∧ n < lim := by
  unfold fieldValue
  split
  · rename_i m h
    by_cases hl : m < lim
    · rw [if_pos hl, h]; constructor
      · intro h; cases h; exact ⟨rfl, hl⟩
      · intro h; exact h.1
    · rw [if_neg hl, h]; constructor
      · intro h; cases h
      · rintro ⟨h, h2⟩; cases h; exact absurd h2 hl
  · simp_all

/-- What a format `P` operand list gives. -/
theorem byteOperand_eq_some {mk : List Byte → Instr} {ts : List Token} {i : Instr} :
    byteOperand mk ts = some i ↔ ∃ p, byteItems ts = some p ∧ payloadFits p = true ∧ i = mk p := by
  unfold byteOperand
  split
  · rename_i bs h
    rw [h]
    by_cases hp : payloadFits bs = true
    · rw [if_pos hp]; constructor
      · intro e; cases e; exact ⟨bs, rfl, hp, rfl⟩
      · rintro ⟨p, e, _, rfl⟩; cases e; rfl
    · rw [if_neg hp]; constructor
      · intro e; cases e
      · rintro ⟨p, e, h2, rfl⟩; cases e; exact absurd h2 hp
  · rename_i h; rw [h]; constructor
    · intro e; cases e
    · rintro ⟨p, e, _⟩; cases e

/-- What a format `S` operand list gives: the three numbers written, each fitting its field. -/
theorem rangeOperand_eq_some {mk : Byte → Word → Word → Instr} {ts : List Token} {i : Instr} :
    rangeOperand mk ts = some i ↔ ∃ (h : Byte) (o l : Word) (hs os ls : List Char), ts = rangeTokens hs os ls ∧
      numberValue hs = some h.toNat ∧ numberValue os = some o.toNat ∧ numberValue ls = some l.toNat ∧ i = mk h o l := by
  constructor
  · intro h
    unfold rangeOperand at h
    split at h
    · rename_i hs os ls
      split at h
      · rename_i vh vo vl e1 e2 e3
        rw [fieldValue_eq_some] at e1 e2 e3
        cases h
        refine ⟨BitVec.ofNat 8 vh, BitVec.ofNat 32 vo, BitVec.ofNat 32 vl, hs, os, ls, rfl, ?_, ?_, ?_, rfl⟩
        · rw [BitVec.toNat_ofNat, Nat.mod_eq_of_lt e1.2]; exact e1.1
        · rw [BitVec.toNat_ofNat, Nat.mod_eq_of_lt e2.2]; exact e2.1
        · rw [BitVec.toNat_ofNat, Nat.mod_eq_of_lt e3.2]; exact e3.1
      · cases h
    · cases h
  · rintro ⟨h, o, l, hs, os, ls, rfl, e1, e2, e3, rfl⟩
    have g1 : fieldValue (2^8) hs = some h.toNat := fieldValue_eq_some.mpr ⟨e1, h.isLt⟩
    have g2 : fieldValue Config.lenLimit os = some o.toNat := fieldValue_eq_some.mpr ⟨e2, o.isLt⟩
    have g3 : fieldValue Config.lenLimit ls = some l.toNat := fieldValue_eq_some.mpr ⟨e3, l.isLt⟩
    simp only [rangeOperand, rangeTokens, g1, g2, g3, BitVec.ofNat_toNat, BitVec.setWidth_eq]

/-- Format `N` takes no operand. -/
theorem noOperand_eq_some {j i : Instr} {ts : List Token} : noOperand j ts = some i ↔ ts = [] ∧ i = j := by
  cases ts <;> simp [noOperand, eq_comm]

end Sys2Proof.Machine
end

