-- ==== Sys2Proof/Tests/Slice0.lean ====
section
/-! SUPPORT. Tests, with expected results from spec/ (the rule or the vector of 95_test_vectors.md is named with each), and
for every obligation with hypotheses a witness that meets them. -/

namespace Sys2Proof.Tests

-- The tests are elaborated one after another: side by side, their threads' stacks fill the memory a check allows.
set_option Elab.async false

open Sys2Proof.Machine

/-! ### Helpers -/

/-- `len` bytes written as one number, first byte most significant. -/
def be (len n : Nat) : List Byte := (List.range len).map fun i => BitVec.ofNat 8 (n / 256 ^ (len - 1 - i))

/-- The next state of an outcome, if any. -/
def nextOf (o : Host.Outcome State Fault Refusal) : Option State :=
  match o with
  | .next t => some t
  | .fault _ => none
  | .refused _ => none

/-- The Lean fault of an outcome, if any. -/
def stopOf (o : Host.Outcome State Fault Refusal) : Option Fault :=
  match o with
  | .next _ => none
  | .fault r => some r
  | .refused _ => none

theorem exists_next {o : Host.Outcome State Fault Refusal} {P : State → Bool} (h : (nextOf o).any P = true) :
    ∃ t, o = .next t ∧ P t = true := by
  cases o <;> simp_all [nextOf]

/-- Engine `SHA` active with "abc" absorbed (95_test_vectors.md section 3, before Finish). -/
def abcState : State := { State.reset with sha := .running ⟨iv, [0x61, 0x62, 0x63], 3⟩ }

/-- `INNER.H` after `HMAC.START "Jefe"` (42_hmac.md R135). -/
def jefeWords : Words8 :=
  ⟨0x655da7fa, 0xcc434b37, 0x5a1cd5cb, 0x0692ee0e, 0xa47a23d3, 0x4c3af449, 0xdba21ae2, 0x78c7500c⟩

/-- The outer pad of key "Jefe" (42_hmac.md R131). -/
def jefeOpad : List Byte := [0x16, 0x39, 0x3a, 0x39] ++ List.replicate 60 0x5c

/-- "what do ya want for nothing?" (95_test_vectors.md V-RFC-2). -/
def jefeData : List Byte := be 28 0x7768617420646f2079612077616e7420666f72206e6f7468696e673f

/-- `Seg(1)` and `Seg(2)` of 95_test_vectors.md section 4.4. -/
def segments : SegSpace :=
  [(1, be 14 0x48656c6c6f616263546865726521),
   (2, be 5 0x48656c6c6f ++ jefeData ++ be 6 0x546865726521)]

/-- After `HMAC.START "Jefe"`, with the segmented buffers above. -/
def jefeState : State :=
  { State.reset with hmac := ⟨.running ⟨jefeWords, [], 64⟩, .idle, .retained jefeOpad⟩, seg := segments }

/-- After `HMAC.START "Jefe"` and the data. -/
def jefeFull : State :=
  { State.reset with hmac := ⟨.running ⟨jefeWords, jefeData, 92⟩, .idle, .retained jefeOpad⟩ }

/-- `SHA` freshly started, with the segmented buffers above. -/
def shaSegState : State := { State.reset with sha := Engine.start, seg := segments }

/-- Halted on an illegal byte, with `SHA` in a message and one record emitted. -/
def faultedState : State :=
  { abcState with
    faultBit := true
    cause := 1
    finfo := 0x14
    cmd := [0x14]
    dout := [be 32 1] }

/-! ### Well-formedness: a payload of `2^32` bytes does not fit (30_encoding.md R72, R85) -/

theorem longest_fits (b : Byte) : payloadFits (List.replicate (2 ^ 32 - 1) b) = true := by
  rw [payloadFits_iff, List.length_replicate]; decide

theorem too_long (b : Byte) : payloadFits (List.replicate (2 ^ 32) b) = false := by
  rw [Bool.eq_false_iff, Ne, payloadFits_iff, List.length_replicate]; decide

theorem test_wf_shaUpdate : (Instr.shaUpdate (List.replicate (2 ^ 32) 0)).wf = false := too_long 0
theorem test_wf_hmacStart : (Instr.hmacStart (List.replicate (2 ^ 32) 0)).wf = false := too_long 0
theorem test_wf_hmacUpdate : (Instr.hmacUpdate (List.replicate (2 ^ 32) 0)).wf = false := too_long 0
theorem test_wf_longest : (Instr.shaUpdate (List.replicate (2 ^ 32 - 1) 0)).wf = true := longest_fits 0

/-! ### Decoding: one word per constructor, written out from 30_encoding.md R71 to R76 -/

theorem test_decode_shaStart : decode [0x10] = .command .shaStart [] := by decide
theorem test_decode_shaUpdate :
    decode [0x11, 0x00, 0x00, 0x00, 0x02, 0x13, 0xff, 0x13] = .command (.shaUpdate [0x13, 0xff]) [0x13] := by decide
theorem test_decode_shaUpdateSeg :
    decode [0x12, 0x81, 0x80, 0x00, 0x00, 0x01, 0x00, 0x01, 0x02, 0xfe] =
      .command (.shaUpdateSeg 129 2147483649 66302) [] := by decide
theorem test_decode_shaFinish : decode [0x13, 0x10] = .command .shaFinish [0x10] := by decide
theorem test_decode_hmacStart :
    decode [0x20, 0x00, 0x00, 0x00, 0x04, 0x4a, 0x65, 0x66, 0x65] =
      .command (.hmacStart [0x4a, 0x65, 0x66, 0x65]) [] := by decide
theorem test_decode_hmacUpdate : decode [0x21, 0x00, 0x00, 0x00, 0x00] = .command (.hmacUpdate []) [] := by decide
theorem test_decode_hmacUpdateSeg :
    decode [0x22, 0x02, 0x00, 0x00, 0x00, 0x05, 0x00, 0x00, 0x00, 0x1c] = .command (.hmacUpdateSeg 2 5 28) [] := by
  decide
theorem test_decode_hmacFinish : decode [0x23] = .command .hmacFinish [] := by decide

/-- R72: `LEN` is big-endian: `0x00000100` is 256, of which only two bytes have come (R79). -/
theorem test_decode_incomplete : decode [0x11, 0x00, 0x00, 0x01, 0x00, 0x61, 0x62] = .incomplete := by decide

/-- R77: the values next to the legal ranges, and 0x00 and 0xFF. -/
theorem test_decode_illegal :
    [0x00, 0x0f, 0x14, 0x1f, 0x24, 0xff].all (fun op : Byte => decode [op, 0x10] = .illegal op) = true := by decide

/-- R76 against spec/opcode_table.json: the eight opcode bytes as table words. -/
theorem test_tableWords :
    [0x10, 0x11, 0x12, 0x13, 0x20, 0x21, 0x22, 0x23].map (decodeTableWord 8) =
      [some .shaStart, some (.shaUpdate []), some (.shaUpdateSeg 0 0 0), some .shaFinish,
       some (.hmacStart []), some (.hmacUpdate []), some (.hmacUpdateSeg 0 0 0), some .hmacFinish] := by decide

theorem test_tableWord_illegal : decodeTableWord 8 0x14 = none := by decide

/-- A table word placed after reset is the next command: `SHA.START` leaves `STATUS = 0x01`, `pc = 1` (R116). -/
theorem test_withFetchWord :
    (nextOf (step (State.reset.withFetchWord 8 0x10))).map (fun t => (t.status, t.pc)) = some (0x01, 1) := by decide +kernel

/-! ### Bytes, padding, compression -/

/-- 30_encoding.md R72: byte 1 is bits 31:24. -/
theorem test_be32 : be32 0x0a0b0c0d = [0x0a, 0x0b, 0x0c, 0x0d] ∧ unbe32 0x0a 0x0b 0x0c 0x0d = 0x0a0b0c0d := by decide

/-- R92's check values. -/
theorem test_functions :
    bsig0 0x6a09e667 = 0xce20b47e ∧ bsig1 0x510e527f = 0x3587272b ∧ ssig0 0x18 = 0x30060003 ∧
    ssig1 0x18 = 0x000f0000 ∧ ch 0x510e527f 0x9b05688c 0x1f83d9ab = 0x1f85c98c ∧
    maj 0x6a09e667 0xbb67ae85 0x3c6ef372 = 0x3a6fe667 := by decide

/-- R96's worked example, the first row of the trace. -/
theorem test_round :
    round iv 0x428a2f98 0x61626380 =
      ⟨0x5d6aebcd, 0x6a09e667, 0xbb67ae85, 0x3c6ef372, 0xfa2a4622, 0x510e527f, 0x9b05688c, 0x1f83d9ab⟩ := by decide

/-- V-CMP-5: the byte ramp, which pins the byte order. -/
theorem test_compress :
    compress iv ((List.range 64).map (BitVec.ofNat 8)) =
      ⟨0xfc99a2df, 0x88f42a7a, 0x7bb9d180, 0x33cdc6a2, 0x0256755f, 0x9d5b9a50, 0x44a9cc31, 0x5abe84a7⟩ := by
  decide +kernel

/-- R113's examples on both sides of the boundary: `Pad(55, 55)` and `Pad(56, 56)`. -/
theorem test_padding :
    padding 55 55 = [0x80, 0, 0, 0, 0, 0, 0, 0x01, 0xb8] ∧
    padding 56 56 = 0x80 :: List.replicate 63 0 ++ [0, 0, 0, 0, 0, 0, 0x01, 0xc0] := by decide

/-- V-HMAC-3 and V-HMAC-4: a key of 64 bytes is not hashed, one of 65 is. -/
theorem test_normKey :
    normKey (List.replicate 64 0x11) = List.replicate 64 0x11 ∧
    normKey (List.replicate 65 0x11) =
      be 32 0x0d9b716d06b54e026b6f5050ec9f70cdd2dab72f818af4616e8a2b2182eea5c9 ++ List.replicate 32 0 := by
  decide +kernel

/-! ### The commands, one step each -/

/-- R116: from a message in progress, with "abc" absorbed: the message is abandoned and nothing is emitted. -/
theorem test_shaStart :
    (nextOf (exec .shaStart abcState)).map (fun t => (t.sha, t.dout, t.pc)) =
      some (.running ⟨iv, [], 0⟩, [], 1) := by decide +kernel

/-- R117's worked example. -/
theorem test_shaUpdate_abc :
    (nextOf (exec (.shaUpdate [0x61, 0x62, 0x63]) shaSegState)).map (fun t => (t.sha, t.dout, t.pc)) =
      some (.running ⟨iv, [0x61, 0x62, 0x63], 3⟩, [], 8) := by decide +kernel

/-- V-SHA-7: the compression happens when the 64th byte arrives. -/
theorem test_shaUpdate_block :
    (nextOf (exec (.shaUpdate ((List.range 64).map (BitVec.ofNat 8))) shaSegState)).map (fun t => (t.sha, t.pc)) =
      some (.running ⟨⟨0xfc99a2df, 0x88f42a7a, 0x7bb9d180, 0x33cdc6a2, 0x0256755f, 0x9d5b9a50, 0x44a9cc31, 0x5abe84a7⟩,
        [], 64⟩, 69) := by decide +kernel

/-- R118's worked example and V-SRC-1: the digest of "abc". -/
theorem test_shaFinish_abc :
    (nextOf (exec .shaFinish abcState)).map (fun t => (t.sha, t.dout, t.status, t.pc)) =
      some (.idle, [be 32 0xba7816bf8f01cfea414140de5dae2223b00361a396177a9cb410ff61f20015ad], 0x00, 1) := by
  decide +kernel

/-- V-SHA-4: 56 bytes buffered take the two-block path. -/
theorem test_shaFinish_two_blocks :
    (nextOf (exec .shaFinish { State.reset with
        sha := .running ⟨iv, (List.range 56).map (BitVec.ofNat 8), 56⟩ })).map State.dout =
      some [be 32 0xda2ae4d6b36748f2a318f23e7ab1dfdf45acdc9d049bd80e59de82a60895f562] := by decide +kernel

/-- R153's worked example: one read `(1, 5, 3)`. -/
theorem test_shaUpdateSeg :
    (nextOf (exec (.shaUpdateSeg 1 5 3) shaSegState)).map (fun t => (t.sha, t.segTrace, t.pc)) =
      some (.running ⟨iv, [0x61, 0x62, 0x63], 3⟩, [.query 1, .read ⟨1, 5, 3⟩], 10) := by decide +kernel

/-- V-SEG-5 (R151): `OFFSET = SegLen + 1`, `LEN = 0` faults, `OFFSET = SegLen`, `LEN = 0` passes. -/
theorem test_shaUpdateSeg_range :
    (nextOf (exec (.shaUpdateSeg 1 15 0) shaSegState)).map (fun t => (t.status, t.finfo, t.pc)) =
      some (0x1d, 0x12, 0) ∧
    (nextOf (exec (.shaUpdateSeg 1 14 0) shaSegState)).map (fun t => (t.status, t.finfo, t.pc)) =
      some (0x01, 0x00, 10) := by decide +kernel

/-- R135's worked example. -/
theorem test_hmacStart :
    (nextOf (exec (.hmacStart [0x4a, 0x65, 0x66, 0x65]) State.reset)).map (fun t => (t.hmac, t.status, t.pc)) =
      some (⟨.running ⟨jefeWords, [], 64⟩, .idle, .retained jefeOpad⟩, 0x02, 9) := by decide +kernel

/-- R136's worked example. -/
theorem test_hmacUpdate :
    (nextOf (exec (.hmacUpdate jefeData) jefeState)).map (fun t => (t.hmac, t.pc)) =
      some (⟨.running ⟨jefeWords, jefeData, 92⟩, .idle, .retained jefeOpad⟩, 33) := by decide +kernel

/-- R136: an active `SHA` does not make `HMAC` active. -/
theorem test_hmacUpdate_not_started :
    (nextOf (exec (.hmacUpdate [0x61]) abcState)).map (fun t => (t.status, t.finfo, t.sha == abcState.sha)) =
      some (0x15, 0x21, true) := by decide +kernel

/-- R154's worked example: the reads `(2, 5, 16)` and `(2, 21, 12)`. -/
theorem test_hmacUpdateSeg :
    (nextOf (exec (.hmacUpdateSeg 2 5 28) jefeState)).map (fun t => (t.hmac, t.segTrace)) =
      some (⟨.running ⟨jefeWords, jefeData, 92⟩, .idle, .retained jefeOpad⟩,
        [.query 2, .read ⟨2, 5, 16⟩, .read ⟨2, 21, 12⟩]) := by decide +kernel

/-- R75: the sum does not wrap: offset `2^32 - 1` and length 1 are out of range. -/
theorem test_hmacUpdateSeg_no_wrap :
    (nextOf (exec (.hmacUpdateSeg 2 0xffffffff 1) jefeState)).map (fun t => (t.status, t.finfo)) =
      some (0x1e, 0x22) := by decide +kernel

/-- R137's worked example and V-RFC-2. -/
theorem test_hmacFinish :
    (nextOf (exec .hmacFinish jefeFull)).map (fun t => (t.hmac, t.dout, t.status, t.pc)) =
      some (⟨.idle, .idle, .idle⟩,
        [be 32 0x5bdcc146bf60754e6a042426089575c75a003f089d2739839dec58b964ec3843], 0x00, 1) := by decide +kernel

/-! ### The sequencer -/

/-- R77, R164: an illegal byte faults at once, `pc` at that byte, the unit unchanged. -/
theorem test_illegal :
    (nextOf (step { abcState with cmd := [0x14] })).map (fun t => (t.status, t.finfo, t.pc, t.sha == abcState.sha)) =
      some (0x0d, 0x14, 0, true) := by decide +kernel

/-- R196: the three ends of a run. -/
theorem test_ends :
    stopOf (step State.reset) = some .endOfStream ∧
    stopOf (step (State.reset.send [0x11, 0x00])) = some .incompleteCommand ∧
    stopOf (step faultedState) = some .halted := by
  decide +kernel

/-- R190: RESET clears a latched fault and forgets the stream; R35: the history stays. -/
theorem test_reset :
    (nextOf (step (faultedState.assertReset))).map (fun t => (t.status, t.finfo, t.cmd, t.sha, t.dout)) =
      some (0x00, 0x00, [], .idle, [be 32 1]) := by decide +kernel

/-- R196: the result of the run of the stream of R117's and R116's examples, three bytes short of a Finish. -/
theorem test_run :
    (runFor 5 (State.boot [0x10, 0x11, 0x00, 0x00, 0x00, 0x00, 0x23] [] 1)).result = ⟨[], 0x15, 0x23, 6⟩ := by
  decide +kernel

/-! ### Text (R82 to R84) and calls (R85) -/

theorem test_assemble_update :
    assembleLine "SHA.UPDATE  \"ab\" + x\"0b0B\" + 0xaa*2  # text".toList =
      some (some (.shaUpdate [0x61, 0x62, 0x0b, 0x0b, 0xaa, 0xaa])) := by decide +kernel

theorem test_assemble_range :
    assembleLine "HMAC.UPDATE_SEG h=2, off=5, len=0x1c".toList = some (some (.hmacUpdateSeg 2 5 28)) := by decide +kernel

theorem test_assemble_errors :
    assembleLine "SHA.UPDATE_SEG h=256, off=0, len=0".toList = none ∧
    assembleLine "SHA.UPDATE x\"0b0\"".toList = none ∧
    assembleLine "SHA.UPDATE 256*1".toList = none ∧
    assembleLine "SHA.HASH \"abc\"".toList = none := by decide +kernel

theorem test_calls :
    (Call.shaUpdate [0x61]).commands = some [.shaUpdate [0x61]] ∧
    (Call.shaUpdate []).commands = some [.shaUpdate []] ∧
    (Call.shaUpdateSeg 256 0 0).commands = none ∧
    (Call.hmacUpdateSeg 2 5 28).commands = some [.hmacUpdateSeg 2 5 28] := by decide +kernel

/-! ### Witnesses: for every obligation with hypotheses, a state and operands that meet them

`Inv` is not a Bool, so states that meet it are shown to by hand. Where an obligation has clauses with hypotheses of their
own, each has its witness, at a boundary value where it has a range. -/

theorem active_inv : { abcState with cmd := [0x13, 0x10], pc := 0 }.Inv :=
  ⟨by constructor <;> decide, ⟨rfl, trivial, rfl⟩, by unfold State.LatchInv; decide, by decide, by decide, by decide,
    by decide⟩

theorem jefe_inv : jefeState.Inv :=
  ⟨trivial, ⟨rfl, by constructor <;> decide, by decide, rfl⟩, by unfold State.LatchInv; decide, by decide, by decide,
    by decide, by decide⟩

theorem shaSeg_inv : shaSegState.Inv :=
  ⟨by constructor <;> decide, ⟨rfl, trivial, rfl⟩, by unfold State.LatchInv; decide, by decide, by decide, by decide,
    by decide⟩

/-- DecodeOfEncode, LengthFromFirstFiveBytes, StreamRunIsCommandList and ProgramsEnd: encodable commands, a payload of the
greatest length among them. -/
theorem witness_wf :
    (Instr.shaUpdate (List.replicate (2 ^ 32 - 1) 0)).wf = true ∧ (Instr.hmacStart []).wf = true ∧
    (Instr.hmacUpdateSeg 0xff 0xffffffff 0xffffffff).wf = true ∧ Instr.shaFinish.wf = true :=
  ⟨longest_fits 0, by decide, rfl, rfl⟩

theorem witness_EncodeOfDecode : decode [0x11, 0, 0, 0, 1, 0x61, 0x13] = .command (.shaUpdate [0x61]) [0x13] := by decide

/-- IllegalOpcodeFaultsAtOnce: the byte after the last SHA opcode, at a command boundary past one consumed byte. -/
theorem witness_IllegalOpcodeFaultsAtOnce :
    ∃ (s : State) (op : Byte), s.resetLine = false ∧ s.faultBit = false ∧ s.cmd[s.pc]? = some op ∧
      op ∉ [0x10, 0x11, 0x12, 0x13, 0x20, 0x21, 0x22, 0x23] :=
  ⟨{ State.reset with cmd := [0x10, 0x14], pc := 1 }, 0x14, by decide⟩

/-- IncompleteCommandWaits: a segmented Update with its last byte missing. -/
theorem witness_IncompleteCommandWaits :
    ∃ (i : Instr) (n : Nat) (s : State), i.wf = true ∧ 0 < n ∧ n < (encode i).length ∧ s.resetLine = false ∧
      s.faultBit = false ∧ s.cmd.drop s.pc = (encode i).take n :=
  ⟨.shaUpdateSeg 1 2 3, 9, { State.reset with cmd := [0x12, 1, 0, 0, 0, 2, 0, 0, 0] }, by decide⟩

theorem witness_StepRunsDecodedCommand :
    ∃ (s : State) (i : Instr) (rest : List Byte), s.resetLine = false ∧ s.faultBit = false ∧ i.wf = true ∧
      s.cmd.drop s.pc = encode i ++ rest :=
  ⟨{ State.reset with cmd := [0x10, 0x11, 0, 0, 0, 1, 0x61, 0x13], pc := 1 }, .shaUpdate [0x61], [0x13], by decide⟩

/-- OnlyResetLeavesHalted: both clauses: without RESET, and a next state with it. -/
theorem witness_OnlyResetLeavesHalted :
    (faultedState.faultBit = true ∧ faultedState.resetLine = false) ∧
    ∃ t, step faultedState.assertReset = .next t :=
  ⟨by decide, _, rfl⟩

/-- StepKeepsInvariant: a command, and a fault. -/
theorem witness_StepKeepsInvariant :
    ∃ s t u : State, s.Inv ∧ step s = .next t ∧ (s.setSha .idle).Inv ∧ step (s.setSha .idle) = .next u :=
  ⟨{ abcState with cmd := [0x13, 0x10], pc := 0 }, _, _, active_inv, rfl,
    ⟨trivial, ⟨rfl, trivial, rfl⟩, by unfold State.LatchInv; decide, by decide, by decide, by decide, by decide⟩, rfl⟩

/-- FaultsArePrecise: each of the three causes. -/
theorem witness_FaultsArePrecise :
    (∃ t, step { abcState with cmd := [0x24] } = .next t ∧ (t.faultBit && t.cause == 1) = true) ∧
    (∃ t, step { abcState with cmd := [0x23] } = .next t ∧ (t.faultBit && t.cause == 2) = true) ∧
    (∃ t, step { shaSegState with cmd := [0x12, 1, 0, 0, 0, 15, 0, 0, 0, 0] } = .next t ∧
      (t.faultBit && t.cause == 3) = true) :=
  ⟨exists_next (by decide +kernel), exists_next (by decide +kernel), exists_next (by decide +kernel)⟩

/-- CommandsCompleteOrFaultByTable: a state with the invariant for each row: completion, `NOT_STARTED`, and `SEG_RANGE`
next to the last range in bounds. -/
theorem witness_CommandsCompleteOrFaultByTable :
    shaSegState.Inv ∧ (Instr.shaFinish).cause shaSegState = none ∧
    (Instr.hmacFinish).cause shaSegState = some .notStarted ∧
    (Instr.hmacUpdateSeg 1 15 0).cause shaSegState = some .notStarted ∧
    (Instr.shaUpdateSeg 1 14 0).cause shaSegState = none ∧
    (Instr.shaUpdateSeg 1 15 0).cause shaSegState = some .segRange ∧
    jefeState.Inv ∧ (Instr.hmacUpdateSeg 2 0 39).cause jefeState = none ∧
    (Instr.hmacUpdateSeg 2 0 40).cause jefeState = some .segRange :=
  ⟨shaSeg_inv, by decide, by decide, by decide, by decide, by decide, jefe_inv, by decide, by decide⟩

/-- NotStartedFaults, and the inactive clauses of the Results. -/
theorem witness_NotStartedFaults : jefeState.sha.active = false ∧ shaSegState.hmac.active = false := by decide

/-- SegRangeFaults: one byte past the content, and one handle with no content. -/
theorem witness_SegRangeFaults :
    (shaSegState.sha.active = true ∧ segLen shaSegState.seg 1 < (14 : Word).toNat + (1 : Word).toNat) ∧
    (jefeState.hmac.active = true ∧ segLen jefeState.seg 3 < (1 : Word).toNat + (0 : Word).toNat) := by decide

theorem witness_StatusLayout : shaSegState.LatchInv ∧ shaSegState.faultBit = false :=
  ⟨shaSeg_inv.latch, by decide⟩

/-- PcMovesPastTheCommand: a step that completes, and one that sets the latch. -/
theorem witness_PcMovesPastTheCommand :
    (∃ t, step { abcState with cmd := [0x13] } = .next t ∧ (!t.faultBit && t.pc == 1) = true) ∧
    (∃ t, step { abcState with cmd := [0x23] } = .next t ∧ (t.faultBit && t.pc == 0) = true) :=
  ⟨exists_next (by decide +kernel), exists_next (by decide +kernel)⟩

/-- OneRecordPerFinish: a Finish that completes, one that faults, and another command. -/
theorem witness_OneRecordPerFinish :
    (∃ t, exec .shaFinish abcState = .next t ∧ (!t.faultBit) = true) ∧
    (∃ t, exec .hmacFinish abcState = .next t ∧ t.faultBit = true) ∧
    (∃ t, exec .shaStart abcState = .next t ∧ (!t.faultBit) = true) :=
  ⟨exists_next (by decide +kernel), exists_next (by decide +kernel), exists_next (by decide +kernel)⟩

/-- StreamRunIsCommandList: a stream with a faulting command in the middle and an incomplete tail. -/
theorem witness_StreamRunIsCommandList :
    ∃ (cs : List Instr) (s : State) (tail : List Byte), (∀ i ∈ cs, i.wf = true) ∧ s.resetLine = false ∧
      s.cmd.drop s.pc = cs.flatMap encode ++ tail :=
  ⟨[.shaStart, .hmacUpdate [0x61], .shaFinish],
    { State.reset with cmd := [0x10, 0x21, 0, 0, 0, 1, 0x61, 0x13, 0x11] }, [0x11], by decide, by decide, by decide⟩

/-- ProgramsEnd: a program that ends normally, the second clause's hypotheses included. -/
theorem witness_ProgramsEnd :
    ∃ (cs : List Instr) (s : State), (∀ i ∈ cs, i.wf = true) ∧ s.resetLine = false ∧ s.pc ≤ s.cmd.length ∧
      s.cmd.drop s.pc = cs.flatMap encode ∧ ∃ t, performAll cs s = .next t ∧ (!t.faultBit) = true :=
  ⟨[.shaStart, .shaFinish], { State.reset with cmd := [0x10, 0x13] }, by decide, by decide, by decide, by decide,
    exists_next (by decide +kernel)⟩

/-- EveryRunEnds: states for each of the three ends, and the start of a run with the least `CHUNK`. -/
theorem witness_EveryRunEnds :
    ({ abcState with cmd := [0x13, 0x10], pc := 0 }.Inv ∧
      { abcState with cmd := [0x13, 0x10], pc := 0 }.resetLine = false) ∧
    (State.boot [0x10, 0x11] segments 1).Inv ∧ (State.boot [0x13] segments 1).Inv ∧ segments.wf = true :=
  ⟨⟨active_inv, by decide⟩,
    ⟨trivial, ⟨rfl, trivial, rfl⟩, by unfold State.LatchInv; decide, by decide, by decide, by decide, by decide⟩,
    ⟨trivial, ⟨rfl, trivial, rfl⟩, by unfold State.LatchInv; decide, by decide, by decide, by decide, by decide⟩,
    by decide⟩

/-- LogicalFunctionsBitwise and PaddingShape: the least and greatest values, and both sides of the boundary at 55. -/
theorem witness_ranges : 0 < 32 ∧ 31 < 32 ∧ 0 < 64 ∧ 63 < 64 ∧ 55 ≤ 55 ∧ 56 ≤ 56 := by decide

theorem witness_CompressIsSixtyFourRounds : (List.replicate 64 (0xff : Byte)).length = 64 := by decide

/-- ShaUpdateResult and ShaFinishResult: an engine with the most bytes a buffer holds. -/
theorem witness_ShaResults :
    ∃ (s : State) (H : Words8) (buf : List Byte) (total : Count), s.sha = .running ⟨H, buf, total⟩ ∧ buf.length = 63 :=
  ⟨{ State.reset with sha := .running ⟨iv, List.replicate 63 0, 63⟩ }, iv, List.replicate 63 0, 63, rfl, by decide⟩

/-- HmacUpdateResult and HmacFinishResult. -/
theorem witness_HmacResults :
    jefeFull.hmac = ⟨.running ⟨jefeWords, jefeData, 92⟩, .idle, .retained jefeOpad⟩ ∧ jefeData.length < 64 ∧
    jefeOpad.length = 64 :=
  ⟨rfl, by decide, by decide⟩

/-- ShaUpdateSegResult, SegmentedEqualsFlat and SegRequestSequence: a range that ends exactly at the end of the content,
with the least `CHUNK`. -/
theorem witness_ShaUpdateSegResult :
    let s := { shaSegState with chunk := 1 }
    s.sha = .running ⟨iv, [], 0⟩ ∧ s.sha.active = true ∧ 1 ≤ s.chunk ∧
      (10 : Word).toNat + (4 : Word).toNat ≤ segLen s.seg 1 := by decide

/-- HmacUpdateSegResult, SegmentedEqualsFlat and SegRequestSequence. -/
theorem witness_HmacUpdateSegResult :
    jefeState.hmac = ⟨.running ⟨jefeWords, [], 64⟩, .idle, .retained jefeOpad⟩ ∧ jefeState.hmac.active = true ∧
      jefeState.hmac.inner.active = true ∧ 1 ≤ jefeState.chunk ∧
      (5 : Word).toNat + (34 : Word).toNat ≤ segLen jefeState.seg 2 := by decide

theorem witness_SegReadGivesTheBytes : segRead segments 16 ⟨1, 5, 3⟩ = some [0x61, 0x62, 0x63] := by decide

/-- SegReadsStayInRange: a next state after reads, with `CHUNK` at least 1. -/
theorem witness_SegReadsStayInRange :
    1 ≤ jefeState.chunk ∧
    ∃ t, exec (.hmacUpdateSeg 2 5 28) jefeState = .next t ∧ (t.segTrace.contains (.read ⟨2, 21, 12⟩)) = true :=
  ⟨by decide, exists_next (by decide +kernel)⟩

theorem witness_SegSpaceIsReadOnly :
    ∃ t, step { shaSegState with cmd := [0x12, 1, 0, 0, 0, 5, 0, 0, 0, 3] } = .next t ∧ (!t.faultBit) = true :=
  exists_next (by decide +kernel)

/-- HostReplacesABuffer: a canonical SEG space, and a second handle. -/
theorem witness_HostReplacesABuffer : segments.wf = true ∧ (2 : Byte) ≠ 1 ∧ jefeState.Inv :=
  ⟨by decide, by decide, jefe_inv⟩

/-- KeyNormalisation: keys on both sides of 64 bytes, and the last byte of the normalised key. -/
theorem witness_KeyNormalisation :
    (List.replicate 64 (0x11 : Byte)).length ≤ 64 ∧ 64 < (List.replicate 65 (0x11 : Byte)).length ∧
    (normKey (List.replicate 64 0x11))[63]? = some 0x11 := by decide +kernel

/-- UpdatesJoin and EmptyUpdateChangesNothing. -/
theorem witness_UpdatesJoin :
    shaSegState.sha.active = true ∧ jefeState.hmac.active = true ∧ jefeState.hmac.inner.active = true := by decide

/-- ShaDigestOfMessage, HmacTagOfMessage and UnitsHoldTheMessage: a flat piece and a range, the whole buffer. -/
theorem witness_messages :
    ∃ ps : List Piece, shaSegState.faultBit = false ∧ 1 ≤ shaSegState.chunk ∧
      (∀ p ∈ ps, p.fits shaSegState.seg = true) ∧ 64 + (messageOf shaSegState.seg ps).length < 2 ^ 61 :=
  ⟨[.flat [0x61], .range 1 0 14, .range 3 0 0], by decide, by decide, by decide, by decide⟩

/-- ShaDigestOfMessage, second clause: a command of the other unit between the Updates. -/
theorem witness_ShaDigestOfMessage :
    ∃ (cs : List Instr) (ps : List Piece), cs.filter (fun i => i.isSha) = ps.map Piece.toSha ∧ cs.length ≠ ps.length ∧
      ∃ t, performAll (.shaStart :: cs) jefeState = .next t ∧ (!t.faultBit) = true :=
  ⟨[.shaUpdate [0x61], .hmacUpdate [0x62], .shaUpdateSeg 1 5 3], [.flat [0x61], .range 1 5 3], by decide, by decide,
    exists_next (by decide +kernel)⟩

/-- HmacTagOfMessage, second clause. -/
theorem witness_HmacTagOfMessage :
    ∃ (cs : List Instr) (ps : List Piece), cs.filter (fun i => !i.isSha) = ps.map Piece.toHmac ∧ cs.length ≠ ps.length ∧
      ∃ t, performAll (.hmacStart [] :: cs) shaSegState = .next t ∧ (!t.faultBit) = true :=
  ⟨[.shaUpdate [0x61], .hmacUpdateSeg 1 0 14, .shaUpdateSeg 1 5 3], [.range 1 0 14], by decide, by decide,
    exists_next (by decide +kernel)⟩

/-- OuterPadFixed: an Update, and the Finish that ends the pad. -/
theorem witness_OuterPadFixed :
    (∃ t, exec (.hmacUpdate [0x61]) jefeState = .next t) ∧ (∃ t, exec .hmacFinish jefeState = .next t) ∧
    (∀ key, Instr.hmacUpdate [0x61] ≠ .hmacStart key) ∧ (∀ key, Instr.hmacFinish ≠ .hmacStart key) :=
  ⟨⟨_, rfl⟩, ⟨_, rfl⟩, by simp, by simp⟩

/-- ShaCommandFrame: a completing and a faulting command of unit SHA. -/
theorem witness_ShaCommandFrame :
    Instr.shaFinish.isSha = true ∧ (∃ t, exec .shaFinish abcState = .next t ∧ (!t.faultBit) = true) ∧
    (∃ t, exec .shaFinish jefeState = .next t ∧ t.faultBit = true) :=
  ⟨rfl, exists_next (by decide +kernel), exists_next (by decide +kernel)⟩

/-- HmacCommandFrame: a completing and a faulting command of unit HMAC. -/
theorem witness_HmacCommandFrame :
    Instr.hmacFinish.isSha = false ∧ (∃ t, exec .hmacFinish jefeFull = .next t ∧ (!t.faultBit) = true) ∧
    (∃ t, exec .hmacFinish abcState = .next t ∧ t.faultBit = true) :=
  ⟨rfl, exists_next (by decide +kernel), exists_next (by decide +kernel)⟩

/-- UnitSeesOnlyItself: two states that agree on the unit and the buffers and differ in the rest. -/
theorem witness_UnitSeesOnlyItself :
    let s' : State := { shaSegState with hmac := jefeState.hmac, chunk := 1, dout := [be 32 1], pc := 3 }
    1 ≤ shaSegState.chunk ∧ 1 ≤ s'.chunk ∧ shaSegState.seg = s'.seg ∧ shaSegState.sha = s'.sha ∧
      ∃ t, exec (.shaUpdateSeg 1 5 3) shaSegState = .next t ∧ (!t.faultBit) = true :=
  ⟨by decide, by decide, by decide, by decide, exists_next (by decide +kernel)⟩

/-- UnitsInterleaveFreely: both units finish, their commands mixed. -/
theorem witness_UnitsInterleaveFreely :
    1 ≤ jefeFull.chunk ∧ jefeFull.faultBit = false ∧
    ∃ t, performAll [.shaStart, .hmacFinish, .shaFinish] jefeFull = .next t ∧ (!t.faultBit) = true :=
  ⟨by decide, by decide, exists_next (by decide +kernel)⟩

/-- LongUpdateIsSplit: a span that fits, the empty one, and an active unit of each kind. -/
theorem witness_LongUpdateIsSplit :
    (List.replicate (2 ^ 32 - 1) (0 : Byte)).length ≤ 2 ^ 32 - 1 ∧ ([] : List Byte).length ≤ 2 ^ 32 - 1 ∧
    (abcState.faultBit = false ∧ abcState.sha = .running ⟨iv, [0x61, 0x62, 0x63], 3⟩) ∧
    (jefeState.faultBit = false ∧ jefeState.hmac = ⟨.running ⟨jefeWords, [], 64⟩, .idle, .retained jefeOpad⟩) :=
  ⟨List.length_replicate.le, by decide, by decide, by decide⟩

/-- TablesAreRootsOfPrimes: the eighth prime, the last of `IV`, and the last of all. -/
theorem witness_TablesAreRootsOfPrimes :
    let primes := (List.range 312).filter fun n => 2 ≤ n ∧ ∀ d ∈ List.range 18, 2 ≤ d → d < n → n % d ≠ 0
    primes[7]? = some 19 ∧ primes[63]? = some 311 := by decide +kernel

/-- AssembledCommandsEncodable: an accepted line of each operand form, and the tokens its right side speaks of. -/
theorem witness_AssembledCommandsEncodable :
    assembleLine "HMAC.START \"Jefe\"".toList = some (some (.hmacStart [0x4a, 0x65, 0x66, 0x65])) ∧
    assembleLine "SHA.UPDATE_SEG h=255, off=0, len=0xffffffff".toList =
      some (some (.shaUpdateSeg 0xff 0 0xffffffff)) ∧
    assembleLine "SHA.FINISH".toList = some (some .shaFinish) ∧
    lex .outside [] "SHA.UPDATE_SEG h=255, off=0, len=0xffffffff".toList =
      some (.word "SHA.UPDATE_SEG".toList :: rangeTokens "255".toList "0".toList "0xffffffff".toList) := by
  decide +kernel

/-- RangeTextAssembles: both ways to write, and numbers on both sides of the limit of a handle. -/
theorem witness_RangeTextAssembles :
    Nat.toDigits 10 255 = "255".toList ∧ '0' :: 'x' :: Nat.toDigits 16 255 = "0xff".toList ∧
    255 < 2 ^ 8 ∧ ¬ 256 < 2 ^ 8 := by decide +kernel

/-- ByteItemsAreAsWritten: the least and the greatest printable character, a repetition, and two expressions to join. -/
theorem witness_ByteItemsAreAsWritten :
    (∀ b ∈ [(0x20 : Byte), 0x7e], 0x20 ≤ b.toNat ∧ b.toNat ≤ 0x7e ∧ b.toNat ≠ 0x22) ∧
    byteItems [.word "0xaa".toList, .star, .word "2".toList] = some [0xaa, 0xaa] ∧
    byteItems [.bytes [0x61]] = some [0x61] := by decide +kernel

end Sys2Proof.Tests
end

section
/-! The engine's loop and Finish against the blocks of the whole message (spec/41_hash_engine.md R111, R114). -/

namespace Sys2Proof.Machine

/-! ### Blocks and the rest -/

theorem length_leftover (x : List Byte) : (leftover x).length = x.length % 64 := by
  rw [leftover, List.length_drop]; omega

/-- Fewer than 64 bytes hold no block. -/
theorem blocks_of_lt {x : List Byte} (h : x.length < 64) : blocks x = [] := by
  simp [blocks, Nat.div_eq_of_lt h]

theorem compressBlocks_of_lt (H : Words8) {x : List Byte} (h : x.length < 64) : compressBlocks H x = H := by
  rw [compressBlocks, blocks_of_lt h]; rfl

theorem leftover_of_lt {x : List Byte} (h : x.length < 64) : leftover x = x := by
  simp [leftover, Nat.div_eq_of_lt h]

/-- The complete blocks of a sequence are blocks of every longer one. -/
theorem map_block_append (x y : List Byte) {n : Nat} (hn : 64 * n ≤ x.length) :
    ((List.range n).map fun k => ((x ++ y).drop (64 * k)).take 64) =
      (List.range n).map fun k => (x.drop (64 * k)).take 64 := by
  refine List.map_congr_left fun k hk => ?_
  have hk' := List.mem_range.mp hk
  rw [List.drop_append_of_le_length (by omega), List.take_append_of_le_length (by rw [List.length_drop]; omega)]

/-- A byte that does not fill a block leaves the blocks as they are. -/
theorem blocks_concat_of_ne {x : List Byte} (b : Byte) (h : x.length % 64 ≠ 63) : blocks (x ++ [b]) = blocks x := by
  have hdiv : (x ++ [b]).length / 64 = x.length / 64 := by simp only [List.length_append, List.length_singleton]; omega
  rw [blocks, hdiv, map_block_append x [b] (by omega), blocks]

theorem leftover_concat_of_ne {x : List Byte} (b : Byte) (h : x.length % 64 ≠ 63) :
    leftover (x ++ [b]) = leftover x ++ [b] := by
  have hdiv : (x ++ [b]).length / 64 = x.length / 64 := by simp only [List.length_append, List.length_singleton]; omega
  rw [leftover, hdiv, List.drop_append_of_le_length (by omega), leftover]

/-- A byte that fills a block adds it. -/
theorem blocks_concat_of_eq {x : List Byte} (b : Byte) (h : x.length % 64 = 63) :
    blocks (x ++ [b]) = blocks x ++ [leftover x ++ [b]] := by
  have hdiv : (x ++ [b]).length / 64 = x.length / 64 + 1 := by
    simp only [List.length_append, List.length_singleton]; omega
  have hlast : ((x ++ [b]).drop (64 * (x.length / 64))).take 64 = leftover x ++ [b] := by
    rw [List.drop_append_of_le_length (by omega), List.take_of_length_le, leftover]
    simp only [List.length_append, List.length_drop, List.length_singleton]; omega
  rw [blocks, hdiv, List.range_succ, List.map_append, map_block_append x [b] (by omega), blocks, List.map_singleton,
    hlast]

theorem leftover_concat_of_eq {x : List Byte} (b : Byte) (h : x.length % 64 = 63) : leftover (x ++ [b]) = [] := by
  rw [← List.length_eq_zero_iff, length_leftover, List.length_append, List.length_singleton]; omega

/-- A front part of whole blocks does not change the rest. -/
theorem leftover_append_of_mod_eq_zero {x : List Byte} (y : List Byte) (h : x.length % 64 = 0) :
    leftover (x ++ y) = leftover y := by
  have hdiv : 64 * ((x ++ y).length / 64) = x.length + 64 * (y.length / 64) := by rw [List.length_append]; omega
  rw [leftover, hdiv, List.drop_append, leftover, List.drop_eq_nil_of_le (by omega), List.nil_append,
    Nat.add_sub_cancel_left]

/-! ### Update -/

/-- One pass of R111's loop, on an engine that holds `x` as blocks and rest, makes it hold `x` and the byte. -/
theorem absorbByte_blocks (H : Words8) (x : List Byte) (t : Count) (b : Byte) :
    (⟨compressBlocks H x, leftover x, t⟩ : EngineRegs).absorbByte b =
      ⟨compressBlocks H (x ++ [b]), leftover (x ++ [b]), t⟩ := by
  have hlen : (leftover x ++ [b]).length = x.length % 64 + 1 := by
    rw [List.length_append, length_leftover, List.length_singleton]
  by_cases h : x.length % 64 = 63
  · simp only [EngineRegs.absorbByte, hlen, h, compressBlocks, blocks_concat_of_eq b h, leftover_concat_of_eq b h,
      List.foldl_append, List.foldl_cons, List.foldl_nil, if_true]
  · have h64 : ¬ x.length % 64 + 1 = Config.blockBytes := by simp only [Config.blockBytes]; omega
    simp only [EngineRegs.absorbByte, hlen, h64, compressBlocks, blocks_concat_of_ne b h, leftover_concat_of_ne b h,
      if_false]

/-- R111's loop, on an engine that holds `x` as blocks and rest. -/
theorem foldl_absorbByte_blocks (H : Words8) (x s : List Byte) (t : Count) :
    s.foldl EngineRegs.absorbByte ⟨compressBlocks H x, leftover x, t⟩ =
      ⟨compressBlocks H (x ++ s), leftover (x ++ s), t⟩ := by
  induction s generalizing x with
  | nil => simp
  | cons b s ih => rw [List.foldl_cons, absorbByte_blocks, ih, List.append_assoc, List.singleton_append]

/-- R111's loop on any engine with a partial block buffered. -/
theorem foldl_absorbByte_eq (H : Words8) {buf : List Byte} (s : List Byte) (t : Count) (h : buf.length < 64) :
    s.foldl EngineRegs.absorbByte ⟨H, buf, t⟩ = ⟨compressBlocks H (buf ++ s), leftover (buf ++ s), t⟩ := by
  simpa only [compressBlocks_of_lt H h, leftover_of_lt h] using foldl_absorbByte_blocks H buf s t

/-- R111 in closed form. -/
theorem absorb_eq (H : Words8) {buf : List Byte} (t : Count) (s : List Byte) (h : buf.length < 64) :
    (⟨H, buf, t⟩ : EngineRegs).absorb s =
      ⟨compressBlocks H (buf ++ s), leftover (buf ++ s), t + BitVec.ofNat 64 s.length⟩ := by
  rw [EngineRegs.absorb, foldl_absorbByte_eq H s t h]

/-- R111 after R110: an engine that has absorbed `m`. -/
theorem start_absorb (m : List Byte) :
    EngineRegs.start.absorb m = ⟨compressBlocks iv m, leftover m, BitVec.ofNat 64 m.length⟩ := by
  rw [EngineRegs.start, absorb_eq iv 0 m (by decide), List.nil_append, BitVec.ofNat_eq_ofNat, BitVec.zero_add]

/-- R112 (b): two Updates in a row are one. -/
theorem absorb_append (r : EngineRegs) (a b : List Byte) : (r.absorb a).absorb b = r.absorb (a ++ b) := by
  simp only [EngineRegs.absorb, foldl_absorbByte_withTotal, List.foldl_append, List.length_append, BitVec.ofNat_add,
    BitVec.add_assoc]

theorem length_absorb_buf {r : EngineRegs} (s : List Byte) (h : r.buf.length < 64) :
    (r.absorb s).buf.length = (r.buf.length + s.length) % 64 :=
  foldl_absorbByte_buf r s h

/-! ### Finish -/

/-- The blocks of a sequence in two parts: those of the first, then those of its rest in front of the second. -/
theorem compressBlocks_append (H : Words8) (x y : List Byte) :
    compressBlocks H (x ++ y) = compressBlocks (compressBlocks H x) (leftover x ++ y) := by
  have hlt : (leftover x).length < 64 := by rw [length_leftover]; omega
  have h := (foldl_absorbByte_blocks H x y 0).symm.trans (foldl_absorbByte_eq (compressBlocks H x) y 0 hlt)
  exact congrArg EngineRegs.H h

theorem compressBlocks_of_length_eq (H : Words8) {x : List Byte} (h : x.length = 64) :
    compressBlocks H x = compress H x := by
  have hb : blocks x = [x] := by simp [blocks, h, List.take_of_length_le h.le]
  rw [compressBlocks, hb]; rfl

/-- R114: one compression, or two, is `Compress` folded over the padded tail. -/
theorem finish_eq {r : EngineRegs} (h : r.buf.length < 64) :
    r.finish = digest (compressBlocks r.H (r.buf ++ padding r.n r.total)) := by
  have hlen : (r.buf ++ padding r.n r.total).length = r.buf.length + (9 + (119 - r.buf.length) % 64) := by
    rw [List.length_append, length_padding, EngineRegs.n]
  rw [EngineRegs.finish]
  generalize r.buf ++ padding r.n r.total = T at hlen ⊢
  have hsplit := congrArg (compressBlocks r.H) (List.take_append_drop 64 T)
  have htake : (T.take 64).length = 64 := by rw [List.length_take]; omega
  rw [compressBlocks_append, compressBlocks_of_length_eq _ htake,
    show leftover (T.take 64) = [] by simp [leftover, htake], List.nil_append] at hsplit
  by_cases h128 : T.length = 128
  · rw [← hsplit, compressBlocks_of_length_eq _ (by rw [List.length_drop]; omega)]
    simp only [h128, if_true]
  · rw [← hsplit, compressBlocks_of_lt _ (by rw [List.length_drop]; omega)]
    simp only [h128, if_false]

/-- R119: Start, Update and Finish of an engine give the digest of the message. -/
theorem hashPass_eq (m : List Byte) : hashPass m = sha256Of m := by
  have hlt : (EngineRegs.start.absorb m).buf.length < 64 := by rw [start_absorb, length_leftover]; omega
  rw [sha256Of, compressBlocks_append, hashPass, finish_eq hlt, EngineRegs.n, start_absorb, length_leftover]

/-! ### The key -/

@[simp] theorem length_sha256Of (m : List Byte) : (sha256Of m).length = 32 := rfl

@[simp] theorem length_normKey (key : List Byte) : (normKey key).length = 64 := by
  by_cases h : key.length > 64
  · simp [normKey, h]
  · simp only [normKey, h, if_false, List.length_append, List.length_replicate]; omega

/-- R130: the unit's normalised key is the one of the reference. -/
theorem normKey_eq (key : List Byte) : normKey key = keyBlock key := by
  by_cases h : key.length > 64
  · simp only [normKey, keyBlock, h, if_true, hashPass_eq, length_sha256Of]
  · simp only [normKey, keyBlock, h, if_false]

theorem length_ipadOf (key : List Byte) : (ipadOf key).length = 64 := by
  rw [ipadOf, length_xorPad, ← normKey_eq, length_normKey]

/-- R132: what `HMAC.Start` makes of the unit. -/
theorem HmacUnit.start_eq (u : HmacUnit) (key : List Byte) :
    u.start key = ⟨.running (EngineRegs.start.absorb (ipadOf key)), u.outer, .retained (opadOf key)⟩ := by
  rw [HmacUnit.start, normKey_eq]; rfl

end Sys2Proof.Machine
end

section
/-! Complete commands of the decoder: which they are, and how long (spec/30_encoding.md R70 to R76). -/

namespace Sys2Proof

/-- R74: an encoding is as long as its command. -/
theorem length_encode (i : Instr) : (encode i).length = i.size := by
  cases i with
  | shaStart => exact Laws.EncodeShape.shaStart.2
  | shaUpdate p => exact (Laws.EncodeShape.shaUpdate p).2
  | shaUpdateSeg h o l => exact (Laws.EncodeShape.shaUpdateSeg h o l).2
  | shaFinish => exact Laws.EncodeShape.shaFinish.2
  | hmacStart key => exact (Laws.EncodeShape.hmacStart key).2
  | hmacUpdate p => exact (Laws.EncodeShape.hmacUpdate p).2
  | hmacUpdateSeg h o l => exact (Laws.EncodeShape.hmacUpdateSeg h o l).2
  | hmacFinish => exact Laws.EncodeShape.hmacFinish.2

/-- R72: the bytes a format `P` command was read from. -/
theorem encodePayload_of_decodePayload {mk : List Byte → Instr} {op : Byte} {bs rest : List Byte} {i : Instr}
    (h : decodePayload mk bs = .command i rest) :
    ∃ p, i = mk p ∧ payloadFits p = true ∧ encodePayload op p ++ rest = op :: bs := by
  obtain ⟨len, p, hp, rfl, rfl⟩ := decodePayload_eq_command.mp h
  refine ⟨p, rfl, payloadFits_iff.mpr (hp ▸ len.isLt), ?_⟩
  rw [encodePayload, hp, BitVec.ofNat_toNat, BitVec.setWidth_eq]; simp

/-- R73: the bytes a format `S` command was read from. -/
theorem encodeRange_of_decodeRange {mk : Byte → Word → Word → Instr} {op : Byte} {bs rest : List Byte} {i : Instr}
    (h : decodeRange mk bs = .command i rest) :
    ∃ hd o l, i = mk hd o l ∧ encodeRange op hd o l ++ rest = op :: bs := by
  obtain ⟨hd, o, l, rfl, rfl⟩ := decodeRange_eq_command.mp h
  exact ⟨hd, o, l, rfl, by simp [encodeRange]⟩

/-- R70 to R76: a command that is read is encodable, and its encoding is what was consumed. -/
theorem encode_append_of_decode {bs rest : List Byte} {i : Instr} (h : decode bs = .command i rest) :
    i.wf = true ∧ encode i ++ rest = bs := by
  cases bs with
  | nil => cases h
  | cons op bs =>
    simp only [decode] at h
    split at h
    · cases h; subst op; exact ⟨rfl, rfl⟩
    split at h
    · subst op; obtain ⟨p, rfl, hp⟩ := encodePayload_of_decodePayload (op := opShaUpdate) h; exact hp
    split at h
    · subst op; obtain ⟨hd, o, l, rfl, hb⟩ := encodeRange_of_decodeRange (op := opShaUpdateSeg) h; exact ⟨rfl, hb⟩
    split at h
    · cases h; subst op; exact ⟨rfl, rfl⟩
    split at h
    · subst op; obtain ⟨p, rfl, hp⟩ := encodePayload_of_decodePayload (op := opHmacStart) h; exact hp
    split at h
    · subst op; obtain ⟨p, rfl, hp⟩ := encodePayload_of_decodePayload (op := opHmacUpdate) h; exact hp
    split at h
    · subst op; obtain ⟨hd, o, l, rfl, hb⟩ := encodeRange_of_decodeRange (op := opHmacUpdateSeg) h; exact ⟨rfl, hb⟩
    split at h
    · cases h; subst op; exact ⟨rfl, rfl⟩
    · cases h

/-- A complete command lies within the bytes it was read from. -/
theorem size_le_of_decode {bs rest : List Byte} {i : Instr} (h : decode bs = .command i rest) : i.size ≤ bs.length := by
  rw [← (encode_append_of_decode h).2, List.length_append, length_encode]; omega

end Sys2Proof
end

section
/-! What a command does to each unit, as a function of that unit and the segmented buffers (spec/10_state.md R37), and
what `exec` answers in terms of it. -/

namespace Sys2Proof.Machine

/-! ### The segmented Update as one Update -/

/-- A unit's Update gives in two passes what it gives in one (41_hash_engine.md R112 (b)). -/
def UpdateJoins {U : Type} (update : U → List Byte → Option U) : Prop :=
  ∀ (u : U) (a b : List Byte), (update u a).bind (fun v => update v b) = update u (a ++ b)

theorem Engine.update_joins : UpdateJoins Engine.update := by
  intro e a b
  cases e with
  | idle => rfl
  | running r => simp [Engine.update, absorb_append]

theorem HmacUnit.update_joins : UpdateJoins HmacUnit.update := by
  rintro ⟨inner, outer, pad⟩ a b
  cases pad with
  | idle => rfl
  | retained opad => cases inner with
    | idle => rfl
    | running r => simp [HmacUnit.update, Engine.update, absorb_append]

/-- The unit after the `len` bytes from `offset` on of a buffer. An empty range makes no pass of R152's loop, so it
reaches no check of the unit's Update. -/
def rangeFed {U : Type} (update : U → List Byte → Option U) (u : U) (content : List Byte) (offset len : Nat) :
    Option U :=
  if len = 0 then some u else update u ((content.drop offset).take len)

/-- R155: the chunked read feeds the unit what one Update with the bytes of the range feeds it. -/
theorem segFeed_segRequests {U : Type} {update : U → List Byte → Option U} (hjoin : UpdateJoins update) (m : SegSpace)
    (h : Byte) {chunk passes offset len : Nat} (u : U) (hc : 1 ≤ chunk) (hp : len ≤ passes)
    (hr : offset + len ≤ segLen m h) :
    segFeed update m chunk (segRequests h chunk passes offset len) u =
      (rangeFed update u (segContent m h) offset len).elim .notStarted .done := by
  induction passes generalizing offset len u with
  | zero =>
    obtain rfl : len = 0 := by omega
    simp [segRequests, segFeed, rangeFed]
  | succ passes ih =>
    by_cases hl : len = 0
    · simp [segRequests, segFeed, rangeFed, hl]
    have hread : segRead m chunk ⟨h, offset, min chunk len⟩ =
        some (((segContent m h).drop offset).take (min chunk len)) :=
      segRead_eq_some.mpr ⟨⟨by simp only; omega, by simp only; omega, by simp only; omega⟩, rfl⟩
    have hjoin' := hjoin u (((segContent m h).drop offset).take (min chunk len))
      (((segContent m h).drop (offset + min chunk len)).take (len - min chunk len))
    rw [← List.drop_drop, ← List.take_add, show min chunk len + (len - min chunk len) = len by omega,
      List.drop_drop] at hjoin'
    simp only [segRequests, hl, if_false, segFeed, hread]
    cases hu : update u (((segContent m h).drop offset).take (min chunk len)) with
    | none =>
      rw [hu, Option.bind_none] at hjoin'
      simp [rangeFed, hl, ← hjoin']
    | some v =>
      rw [hu, Option.bind_some] at hjoin'
      simp only [ih v (offset := offset + min chunk len) (len := len - min chunk len) (by omega) (by omega)]
      by_cases hrest : len - min chunk len = 0
      · have hall : min chunk len = len := by omega
        rw [hall] at hu
        simp [rangeFed, hl, hrest, hu]
      · simp [rangeFed, hl, hrest, hjoin']

/-- What a segmented Update makes of its unit; none is one of its two faults (R151, 60_exceptions.md R165). -/
def segEffect {U : Type} (active : Bool) (update : U → List Byte → Option U) (m : SegSpace) (h : Byte)
    (offset len : Word) (u : U) : Option U :=
  if active = true ∧ offset.toNat + len.toNat ≤ segLen m h then
    rangeFed update u (segContent m h) offset.toNat len.toNat
  else none

/-- An empty range is fed without a pass, whatever `CHUNK` is. -/
theorem segFeed_rangeRequests_empty {U : Type} (update : U → List Byte → Option U) (m : SegSpace) (h : Byte)
    (chunk : Nat) (offset : Word) {len : Word} (u : U) (hl : len.toNat = 0) :
    segFeed update m chunk (rangeRequests h chunk offset len) u =
      (rangeFed update u (segContent m h) offset.toNat len.toNat).elim .notStarted .done := by
  simp [rangeRequests, segRequests, hl, segFeed, rangeFed]

/-- With `CHUNK` 0 the first pass over a range that is not empty asks for no byte, outside R52's precondition. -/
theorem segFeed_rangeRequests_zero {U : Type} (update : U → List Byte → Option U) (m : SegSpace) (h : Byte)
    (offset : Word) {len : Word} (u : U) (hl : len.toNat ≠ 0) :
    segFeed update m 0 (rangeRequests h 0 offset len) u = .outside := by
  obtain ⟨k, hk⟩ := Nat.exists_eq_succ_of_ne_zero hl
  simp [rangeRequests, segRequests, hk, segFeed, segRead]

/-- How the loop of R152 over a range within the content ends. -/
theorem segFeed_rangeRequests {U : Type} {update : U → List Byte → Option U} (hjoin : UpdateJoins update)
    (m : SegSpace) (h : Byte) (chunk : Nat) (offset len : Word) (u : U)
    (hr : offset.toNat + len.toNat ≤ segLen m h) :
    segFeed update m chunk (rangeRequests h chunk offset len) u =
        (rangeFed update u (segContent m h) offset.toNat len.toNat).elim .notStarted .done ∨
      (chunk = 0 ∧ segFeed update m chunk (rangeRequests h chunk offset len) u = .outside) := by
  by_cases hl : len.toNat = 0
  · exact .inl (segFeed_rangeRequests_empty update m h chunk offset u hl)
  by_cases hc : chunk = 0
  · subst hc
    exact .inr ⟨rfl, segFeed_rangeRequests_zero update m h offset u hl⟩
  · exact .inl (segFeed_segRequests hjoin m h u (by omega) (le_refl _) hr)

/-- What the segmented Update answers, by its effect on the unit. -/
theorem segUpdate_effect {U : Type} {update : U → List Byte → Option U} (hjoin : UpdateJoins update) (active : Bool)
    (u : U) (put : State → U → State) (i : Instr) (h : Byte) (offset len : Word) (s : State) :
    (∃ u' evs, segEffect active update s.seg h offset len u = some u' ∧
      segUpdate active update u put i h offset len s = complete i (put (s.logSeg evs) u')) ∨
    (segEffect active update s.seg h offset len u = none ∧
      ∃ c evs, segUpdate active update u put i h offset len s = trap c i (s.logSeg evs)) ∨
    (s.chunk = 0 ∧ segUpdate active update u put i h offset len s = .fault .segReadOutside) := by
  have hlog : ∀ evs evs', (s.logSeg evs).logSeg evs' = s.logSeg (evs ++ evs') := fun evs evs' => by
    simp [State.logSeg]
  rcases segUpdate_cases active update u put i h offset len s with ⟨ha, e⟩ | ⟨-, hr, e⟩ | ⟨ha, hr, hfed⟩
  · exact .inr (.inl ⟨by simp [segEffect, ha], .notStarted, [], by simpa [State.logSeg] using e⟩)
  · exact .inr (.inl ⟨if_neg fun hf => by omega, _, _, e⟩)
  have heff : segEffect active update s.seg h offset len u =
      rangeFed update u (segContent s.seg h) offset.toNat len.toNat := if_pos ⟨ha, hr⟩
  rw [heff]
  rcases segFeed_rangeRequests hjoin s.seg h s.chunk offset len u hr with hfeed | ⟨hc, hfeed⟩ <;> rw [hfeed] at hfed
  · cases hu : rangeFed update u (segContent s.seg h) offset.toNat len.toNat with
    | none =>
      rw [hu] at hfed
      obtain ⟨_, hd, -⟩ | ⟨-, e⟩ | ⟨hd, -⟩ := hfed
      · cases hd
      · exact .inr (.inl ⟨rfl, _, _, e⟩)
      · cases hd
    | some v =>
      rw [hu] at hfed
      obtain ⟨_, hd, e⟩ | ⟨hd, -⟩ | ⟨hd, -⟩ := hfed
      · cases hd
        exact .inl ⟨_, _, rfl, by rw [e, hlog]⟩
      · cases hd
      · cases hd
  · obtain ⟨_, hd, -⟩ | ⟨hd, -⟩ | ⟨-, e⟩ := hfed
    · cases hd
    · cases hd
    · exact .inr (.inr ⟨hc, e⟩)

/-! ### The effects -/

/-- What a command makes of the engine `SHA`, with the records it emits; none is a fault. A command of unit HMAC leaves
the engine as it is. -/
def shaEffect (m : SegSpace) (i : Instr) (e : Engine) : Option (Engine × List (List Byte)) :=
  match i with
  | .shaStart => some (Engine.start, [])
  | .shaUpdate p => (e.update p).map fun e' => (e', [])
  | .shaUpdateSeg h o l => (segEffect e.active Engine.update m h o l e).map fun e' => (e', [])
  | .shaFinish => e.finish.map fun de => (de.2, [de.1])
  | .hmacStart _ => some (e, [])
  | .hmacUpdate _ => some (e, [])
  | .hmacUpdateSeg _ _ _ => some (e, [])
  | .hmacFinish => some (e, [])

/-- What a command makes of the unit `HMAC`, with the records it emits; none is a fault. A command of unit SHA leaves
the unit as it is. -/
def hmacEffect (m : SegSpace) (i : Instr) (u : HmacUnit) : Option (HmacUnit × List (List Byte)) :=
  match i with
  | .shaStart => some (u, [])
  | .shaUpdate _ => some (u, [])
  | .shaUpdateSeg _ _ _ => some (u, [])
  | .shaFinish => some (u, [])
  | .hmacStart key => some (u.start key, [])
  | .hmacUpdate p => (u.update p).map fun u' => (u', [])
  | .hmacUpdateSeg h o l => (segEffect u.active HmacUnit.update m h o l u).map fun u' => (u', [])
  | .hmacFinish => u.finish.map fun tu => (tu.2, [tu.1])

/-- A command of unit HMAC has no effect on the engine `SHA` (R37). -/
theorem shaEffect_of_not_isSha {i : Instr} (m : SegSpace) (e : Engine) (hi : i.isSha = false) :
    shaEffect m i e = some (e, []) :=
  match i, hi with
  | .hmacStart _, _ => rfl
  | .hmacUpdate _, _ => rfl
  | .hmacUpdateSeg _ _ _, _ => rfl
  | .hmacFinish, _ => rfl

/-- A command of unit SHA has no effect on the unit `HMAC` (R37). -/
theorem hmacEffect_of_isSha {i : Instr} (m : SegSpace) (u : HmacUnit) (hi : i.isSha = true) :
    hmacEffect m i u = some (u, []) :=
  match i, hi with
  | .shaStart, _ => rfl
  | .shaUpdate _, _ => rfl
  | .shaUpdateSeg _ _ _, _ => rfl
  | .shaFinish, _ => rfl

/-- A segmented Update leaves its unit as it was or as one Update leaves it. -/
theorem segEffect_eq_some {U : Type} {active : Bool} {update : U → List Byte → Option U} {m : SegSpace} {h : Byte}
    {offset len : Word} {u u' : U} (hu : segEffect active update m h offset len u = some u') :
    u' = u ∨ ∃ bs, update u bs = some u' := by
  unfold segEffect at hu
  split at hu
  · unfold rangeFed at hu
    split at hu
    · exact .inl (Option.some.inj hu).symm
    · exact .inr ⟨_, hu⟩
  · cases hu

/-- What a command can make of the engine `SHA`, in full. -/
theorem shaEffect_cases {m : SegSpace} {i : Instr} {e e' : Engine} {rs : List (List Byte)}
    (h : shaEffect m i e = some (e', rs)) :
    (rs = [] ∧ (e' = e ∨ e' = Engine.start ∨ ∃ bs, e.update bs = some e')) ∨
    (i = .shaFinish ∧ ∃ d, e.finish = some (d, e') ∧ rs = [d]) := by
  cases i with
  | shaStart => cases h; exact .inl ⟨rfl, .inr (.inl rfl)⟩
  | shaUpdate p =>
    obtain ⟨e1, he, h⟩ := Option.map_eq_some_iff.mp h
    cases h
    exact .inl ⟨rfl, .inr (.inr ⟨p, he⟩)⟩
  | shaUpdateSeg hd o l =>
    obtain ⟨e1, he, h⟩ := Option.map_eq_some_iff.mp h
    cases h
    exact .inl ⟨rfl, (segEffect_eq_some he).imp id .inr⟩
  | shaFinish =>
    obtain ⟨de, he, h⟩ := Option.map_eq_some_iff.mp h
    cases h
    exact .inr ⟨rfl, de.1, he, rfl⟩
  | hmacStart key => cases h; exact .inl ⟨rfl, .inl rfl⟩
  | hmacUpdate p => cases h; exact .inl ⟨rfl, .inl rfl⟩
  | hmacUpdateSeg hd o l => cases h; exact .inl ⟨rfl, .inl rfl⟩
  | hmacFinish => cases h; exact .inl ⟨rfl, .inl rfl⟩

/-- What a command can make of the unit `HMAC`, in full. -/
theorem hmacEffect_cases {m : SegSpace} {i : Instr} {u u' : HmacUnit} {rs : List (List Byte)}
    (h : hmacEffect m i u = some (u', rs)) :
    (rs = [] ∧ (u' = u ∨ (∃ key, i = .hmacStart key ∧ u' = u.start key) ∨ ∃ bs, u.update bs = some u')) ∨
    (i = .hmacFinish ∧ ∃ t, u.finish = some (t, u') ∧ rs = [t]) := by
  cases i with
  | shaStart => cases h; exact .inl ⟨rfl, .inl rfl⟩
  | shaUpdate p => cases h; exact .inl ⟨rfl, .inl rfl⟩
  | shaUpdateSeg hd o l => cases h; exact .inl ⟨rfl, .inl rfl⟩
  | shaFinish => cases h; exact .inl ⟨rfl, .inl rfl⟩
  | hmacStart key => cases h; exact .inl ⟨rfl, .inr (.inl ⟨key, rfl, rfl⟩)⟩
  | hmacUpdate p =>
    obtain ⟨u1, hu, h⟩ := Option.map_eq_some_iff.mp h
    cases h
    exact .inl ⟨rfl, .inr (.inr ⟨p, hu⟩)⟩
  | hmacUpdateSeg hd o l =>
    obtain ⟨u1, hu, h⟩ := Option.map_eq_some_iff.mp h
    cases h
    exact .inl ⟨rfl, (segEffect_eq_some hu).imp id .inr⟩
  | hmacFinish =>
    obtain ⟨tu, hu, h⟩ := Option.map_eq_some_iff.mp h
    cases h
    exact .inr ⟨rfl, tu.1, hu, rfl⟩

/-! ### What a command answers -/

/-- Whether a command is one of the two segmented Updates. -/
def isSegmented : Instr → Bool
  | .shaStart => false
  | .shaUpdate _ => false
  | .shaUpdateSeg _ _ _ => true
  | .shaFinish => false
  | .hmacStart _ => false
  | .hmacUpdate _ => false
  | .hmacUpdateSeg _ _ _ => true
  | .hmacFinish => false

/-- The state a command that does not fault leaves: its units written, its records emitted, `pc` past it, and the SEG
port's record extended. -/
def State.commit (s : State) (i : Instr) (e : Engine) (u : HmacUnit) (records : List (List Byte))
    (evs : List SegEvent) : State :=
  { s with
    sha := e, hmac := u, pc := s.pc + i.size, dout := s.dout ++ records, segTrace := s.segTrace ++ evs }

section
variable (s : State) (i : Instr) (e : Engine) (u : HmacUnit) (records : List (List Byte)) (evs : List SegEvent)

@[simp] theorem State.commit_sha : (s.commit i e u records evs).sha = e := rfl
@[simp] theorem State.commit_hmac : (s.commit i e u records evs).hmac = u := rfl
@[simp] theorem State.commit_faultBit : (s.commit i e u records evs).faultBit = s.faultBit := rfl
@[simp] theorem State.commit_cause : (s.commit i e u records evs).cause = s.cause := rfl
@[simp] theorem State.commit_finfo : (s.commit i e u records evs).finfo = s.finfo := rfl
@[simp] theorem State.commit_pc : (s.commit i e u records evs).pc = s.pc + i.size := rfl
@[simp] theorem State.commit_cmd : (s.commit i e u records evs).cmd = s.cmd := rfl
@[simp] theorem State.commit_dout : (s.commit i e u records evs).dout = s.dout ++ records := rfl
@[simp] theorem State.commit_seg : (s.commit i e u records evs).seg = s.seg := rfl
@[simp] theorem State.commit_chunk : (s.commit i e u records evs).chunk = s.chunk := rfl
@[simp] theorem State.commit_resetLine : (s.commit i e u records evs).resetLine = s.resetLine := rfl
@[simp] theorem State.commit_segTrace : (s.commit i e u records evs).segTrace = s.segTrace ++ evs := rfl

end

/-- The answers of a command: it completes with the effects on both units; or an effect is a fault, which is taken with
nothing else but the SEG port's record; or `CHUNK` is 0 and a read fell outside the port's precondition. -/
inductive Performed (i : Instr) (s : State) : Host.Outcome State Fault Refusal → Prop
  | completes {e : Engine} {u : HmacUnit} {rs rh : List (List Byte)} {evs : List SegEvent}
      (hsha : shaEffect s.seg i s.sha = some (e, rs)) (hhmac : hmacEffect s.seg i s.hmac = some (u, rh))
      (hevs : isSegmented i = false → evs = []) : Performed i s (.next (s.commit i e u (rs ++ rh) evs))
  | faults {c : FaultCause} {evs : List SegEvent}
      (hnone : shaEffect s.seg i s.sha = none ∨ hmacEffect s.seg i s.hmac = none)
      (hevs : isSegmented i = false → evs = []) : Performed i s (.next ((s.logSeg evs).raiseFault c i.opcode))
  | outside (hchunk : s.chunk = 0) : Performed i s (.fault .segReadOutside)

/-- The first answer, for a state written another way. -/
theorem Performed.of_eq_commit {i : Instr} {s t : State} {e : Engine} {u : HmacUnit} {rs rh : List (List Byte)}
    (evs : List SegEvent) (ht : t = s.commit i e u (rs ++ rh) evs) (hsha : shaEffect s.seg i s.sha = some (e, rs))
    (hhmac : hmacEffect s.seg i s.hmac = some (u, rh)) (hevs : isSegmented i = false → evs = []) :
    Performed i s (.next t) :=
  ht ▸ .completes hsha hhmac hevs

/-- A command that touches no SEG port faults. -/
theorem Performed.of_trap {i : Instr} {s : State} (c : FaultCause)
    (hnone : shaEffect s.seg i s.sha = none ∨ hmacEffect s.seg i s.hmac = none) :
    Performed i s (trap c i s) := by
  have h := Performed.faults (i := i) (s := s) (c := c) (evs := []) hnone fun _ => rfl
  rwa [State.logSeg, List.append_nil] at h

/-- Every command answers by its effects. -/
theorem exec_performed (i : Instr) (s : State) : Performed i s (exec i s) := by
  cases i with
  | shaStart =>
    exact .of_eq_commit (rs := []) (rh := []) [] (by simp [State.commit, State.setSha, State.advance]) rfl rfl
      fun _ => rfl
  | shaUpdate p =>
    simp only [exec, execShaUpdate]
    cases he : s.sha.update p with
    | none => exact .of_trap _ (.inl (by simp [shaEffect, he]))
    | some e =>
      exact .of_eq_commit (e := e) (rs := []) (rh := []) [] (by simp [State.commit, State.setSha, State.advance])
        (by simp [shaEffect, he]) rfl fun _ => rfl
  | shaUpdateSeg h o l =>
    simp only [exec, execShaUpdateSeg]
    rcases segUpdate_effect Engine.update_joins s.sha.active s.sha State.setSha (.shaUpdateSeg h o l) h o l s with
      ⟨e, evs, he, hx⟩ | ⟨he, c, evs, hx⟩ | ⟨hc, hx⟩ <;> rw [hx]
    · exact .of_eq_commit (e := e) (rs := []) (rh := []) evs
        (by simp [State.commit, State.setSha, State.logSeg, State.advance]) (by simp [shaEffect, he]) rfl nofun
    · exact .faults (.inl (by simp [shaEffect, he])) nofun
    · exact .outside hc
  | shaFinish =>
    simp only [exec, execShaFinish]
    cases he : s.sha.finish with
    | none => exact .of_trap _ (.inl (by simp [shaEffect, he]))
    | some de =>
      exact .of_eq_commit (e := de.2) (rs := [de.1]) (rh := []) []
        (by simp [State.commit, State.setSha, State.doutWrite, State.advance]) (by simp [shaEffect, he]) rfl
        fun _ => rfl
  | hmacStart key =>
    exact .of_eq_commit (rs := []) (rh := []) [] (by simp [State.commit, State.setHmac, State.advance]) rfl rfl
      fun _ => rfl
  | hmacUpdate p =>
    simp only [exec, execHmacUpdate]
    cases hu : s.hmac.update p with
    | none => exact .of_trap _ (.inr (by simp [hmacEffect, hu]))
    | some u =>
      exact .of_eq_commit (u := u) (rs := []) (rh := []) [] (by simp [State.commit, State.setHmac, State.advance]) rfl
        (by simp [hmacEffect, hu]) fun _ => rfl
  | hmacUpdateSeg h o l =>
    simp only [exec, execHmacUpdateSeg]
    rcases segUpdate_effect HmacUnit.update_joins s.hmac.active s.hmac State.setHmac (.hmacUpdateSeg h o l) h o l s
      with ⟨u, evs, hu, hx⟩ | ⟨hu, c, evs, hx⟩ | ⟨hc, hx⟩ <;> rw [hx]
    · exact .of_eq_commit (u := u) (rs := []) (rh := []) evs
        (by simp [State.commit, State.setHmac, State.logSeg, State.advance]) rfl (by simp [hmacEffect, hu]) nofun
    · exact .faults (.inr (by simp [hmacEffect, hu])) nofun
    · exact .outside hc
  | hmacFinish =>
    simp only [exec, execHmacFinish]
    cases hu : s.hmac.finish with
    | none => exact .of_trap _ (.inr (by simp [hmacEffect, hu]))
    | some tu =>
      exact .of_eq_commit (u := tu.2) (rs := []) (rh := [tu.1]) []
        (by simp [State.commit, State.setHmac, State.doutWrite, State.advance]) rfl (by simp [hmacEffect, hu])
        fun _ => rfl

/-- A command that answers a next state completed or faulted by its effects. -/
theorem performed_of_exec {i : Instr} {s t : State} (h : exec i s = .next t) : Performed i s (.next t) :=
  h ▸ exec_performed i s

end Sys2Proof.Machine
end

section
/-! The invariant of the block: reset, faults, the effects and every step keep it (spec/10_state.md R23, R26, R28,
R30). -/

namespace Sys2Proof.Machine

/-! ### The units -/

/-- R23, R26: Start leaves an engine that meets the invariant. -/
theorem Engine.inv_start : Engine.start.Inv := ⟨by decide, rfl⟩

/-- R111 keeps the buffer short of a block and in step with the counter. -/
theorem EngineRegs.inv_absorb {r : EngineRegs} (s : List Byte) (h : (Engine.running r).Inv) :
    (Engine.running (r.absorb s)).Inv := by
  obtain ⟨hlt, hmod⟩ := h
  rw [EngineRegs.n] at hlt hmod
  have hbuf := length_absorb_buf s hlt
  refine ⟨by rw [EngineRegs.n, hbuf]; omega, ?_⟩
  rw [EngineRegs.n, hbuf, absorb_total, BitVec.toNat_add, BitVec.toNat_ofNat]
  omega

theorem Engine.inv_of_update {e e' : Engine} {s : List Byte} (h : e.Inv) (hu : e.update s = some e') : e'.Inv := by
  obtain ⟨r, rfl, rfl⟩ := Engine.update_eq_some.mp hu
  exact EngineRegs.inv_absorb s h

/-- What a command makes of the engine `SHA` meets the invariant, and its records have 32 bytes. -/
theorem inv_of_shaEffect {m : SegSpace} {i : Instr} {e e' : Engine} {rs : List (List Byte)} (h : e.Inv)
    (he : shaEffect m i e = some (e', rs)) : e'.Inv ∧ ∀ v ∈ rs, v.length = 32 := by
  rcases shaEffect_cases he with ⟨rfl, rfl | rfl | ⟨bs, hu⟩⟩ | ⟨-, d, hf, rfl⟩
  · exact ⟨h, nofun⟩
  · exact ⟨Engine.inv_start, nofun⟩
  · exact ⟨Engine.inv_of_update h hu, nofun⟩
  · obtain ⟨r, -, rfl, rfl⟩ := Engine.finish_eq_some.mp hf
    exact ⟨trivial, by simp⟩

/-- R28 after `HMAC.Start`. -/
theorem HmacUnit.inv_start {u : HmacUnit} (key : List Byte) (h : u.Inv) : (u.start key).Inv :=
  ⟨h.1, EngineRegs.inv_absorb _ Engine.inv_start, by simp, rfl⟩

theorem HmacUnit.inv_of_update {u u' : HmacUnit} {s : List Byte} (h : u.Inv) (hu : u.update s = some u') : u'.Inv := by
  obtain ⟨opad, r, hpad, hinner, rfl⟩ := HmacUnit.update_eq_some.mp hu
  obtain ⟨houter, hinv, hactive⟩ := h
  rw [hpad] at hactive
  rw [hinner] at hinv
  refine ⟨houter, EngineRegs.inv_absorb s hinv, ?_⟩
  simp only [hpad]
  exact ⟨hactive.1, rfl⟩

/-- What a command makes of the unit `HMAC` meets the invariant, and its records have 32 bytes. -/
theorem inv_of_hmacEffect {m : SegSpace} {i : Instr} {u u' : HmacUnit} {rs : List (List Byte)} (h : u.Inv)
    (hu : hmacEffect m i u = some (u', rs)) : u'.Inv ∧ ∀ v ∈ rs, v.length = 32 := by
  rcases hmacEffect_cases hu with ⟨rfl, rfl | ⟨key, -, rfl⟩ | ⟨bs, hs⟩⟩ | ⟨-, t, hf, rfl⟩
  · exact ⟨h, nofun⟩
  · exact ⟨HmacUnit.inv_start key h, nofun⟩
  · exact ⟨HmacUnit.inv_of_update h hs, nofun⟩
  · obtain ⟨opad, r, -, -, rfl, rfl⟩ := HmacUnit.finish_eq_some.mp hf
    exact ⟨⟨rfl, trivial, rfl⟩, by simp⟩

/-! ### The state -/

/-- R30: a cause that is latched is one of the three. -/
theorem FaultCause.code_mem (c : FaultCause) : c.code = 1 ∨ c.code = 2 ∨ c.code = 3 := by
  cases c <;> decide

theorem State.inv_reset : State.reset.Inv where
  sha := trivial
  hmac := ⟨rfl, trivial, rfl⟩
  latch := ⟨rfl, rfl⟩
  pc := le_refl _
  records := nofun
  seg := reset_seg_wf
  chunk := by decide

theorem State.inv_applyReset {s : State} (h : s.Inv) : s.applyReset.Inv where
  sha := trivial
  hmac := ⟨rfl, trivial, rfl⟩
  latch := ⟨rfl, rfl⟩
  pc := le_refl _
  records := h.records
  seg := h.seg
  chunk := h.chunk

theorem State.inv_raiseFault {s : State} (c : FaultCause) (op : Byte) (h : s.Inv) : (s.raiseFault c op).Inv where
  sha := h.sha
  hmac := h.hmac
  latch := c.code_mem
  pc := h.pc
  records := h.records
  seg := h.seg
  chunk := h.chunk

theorem State.inv_logSeg {s : State} (evs : List SegEvent) (h : s.Inv) : (s.logSeg evs).Inv where
  sha := h.sha
  hmac := h.hmac
  latch := h.latch
  pc := h.pc
  records := h.records
  seg := h.seg
  chunk := h.chunk

theorem State.inv_commit {s : State} {i : Instr} {e : Engine} {u : HmacUnit} {records : List (List Byte)}
    (evs : List SegEvent) (h : s.Inv) (he : e.Inv) (hu : u.Inv) (hrec : ∀ v ∈ records, v.length = 32)
    (hpc : s.pc + i.size ≤ s.cmd.length) : (s.commit i e u records evs).Inv where
  sha := he
  hmac := hu
  latch := h.latch
  pc := hpc
  records := fun v hv => (List.mem_append.mp hv).elim (h.records v) (hrec v)
  seg := h.seg
  chunk := h.chunk

/-- A command that lies within the stream keeps the invariant. -/
theorem State.inv_of_exec {i : Instr} {s t : State} (h : s.Inv) (hpc : s.pc + i.size ≤ s.cmd.length)
    (hx : exec i s = .next t) : t.Inv := by
  cases performed_of_exec hx with
  | completes hsha hhmac =>
    obtain ⟨he, hrs⟩ := inv_of_shaEffect h.sha hsha
    obtain ⟨hu, hrh⟩ := inv_of_hmacEffect h.hmac hhmac
    exact State.inv_commit _ h he hu (fun v hv => (List.mem_append.mp hv).elim (hrs v) (hrh v)) hpc
  | faults => exact State.inv_raiseFault _ _ (State.inv_logSeg _ h)

/-- The command at `pc` lies within the stream. -/
theorem State.pc_add_size_le_of_fetch {s : State} {i : Instr} {rest : List Byte} (h : s.Inv)
    (hf : s.fetch = .command i rest) : s.pc + i.size ≤ s.cmd.length := by
  have hsize := size_le_of_decode hf
  have hpc := h.pc
  rw [List.length_drop] at hsize
  omega

/-- Settles O12: the reset event, a command within the stream and an illegal opcode's fault each keep the invariant. -/
theorem stepKeepsInvariant : Obligations.StepKeepsInvariant := by
  unfold Obligations.StepKeepsInvariant
  intro s t h hstep
  rcases step_cases hstep with ⟨-, rfl⟩ | ⟨-, -, ⟨i, rest, hf, hx⟩ | ⟨op, -, rfl⟩⟩
  · exact State.inv_applyReset h
  · exact State.inv_of_exec h (State.pc_add_size_le_of_fetch h hf) hx
  · exact State.inv_raiseFault .illegalCmd op h

/-- Settles O11. -/
theorem resetMeetsInvariant : Obligations.ResetMeetsInvariant := State.inv_reset

/-- Settles O10. -/
theorem resetValues : Obligations.ResetValues :=
  ⟨rfl, rfl, rfl, rfl, rfl, rfl, rfl, rfl, rfl, rfl, rfl, rfl⟩

end Sys2Proof.Machine
end

section
/-! STATUS, the position on CMD, and what a command leaves unchanged (spec/10_state.md R30, R31, R28 (b), R37). -/

namespace Sys2Proof.Machine

/-! ### STATUS -/

/-- The bits of a vector with a flag put below it. -/
theorem getLsbD_append_ofBool {n : Nat} (x : BitVec n) (b : Bool) (k : Nat) :
    (x ++ BitVec.ofBool b).getLsbD k = if k = 0 then b else x.getLsbD (k - 1) := by
  rw [BitVec.getLsbD_append]
  by_cases hk : k = 0 <;> simp [hk]

/-- R30: the bits of STATUS, the flags from bit 0 on and the cause from bit 3 on. -/
theorem State.getLsbD_status (s : State) (k : Nat) :
    s.status.getLsbD k =
      if k = 0 then s.sha.active else if k = 1 then s.hmac.active else if k = 2 then s.faultBit
      else s.cause.getLsbD (k - 3) := by
  have hcause : ∀ j, ((0 : BitVec 2) ++ s.cause).getLsbD j = s.cause.getLsbD j := by
    intro j
    rw [BitVec.getLsbD_append]
    by_cases hj : j < 3
    · simp [hj]
    · simp [hj, BitVec.getLsbD_of_ge s.cause j (by omega)]
  refine (getLsbD_append_ofBool _ _ _).trans ?_
  rw [getLsbD_append_ofBool, getLsbD_append_ofBool, hcause]
  rcases k with _ | _ | _ | k <;> rfl

/-- Settles O17. -/
theorem statusLayout : Obligations.StatusLayout := by
  unfold Obligations.StatusLayout
  refine ⟨fun s => ⟨?_, ?_, ?_, ?_, ?_, rfl, rfl⟩, fun s hlatch hf => ?_⟩
  · simp only [State.getLsbD_status, if_true]
  · simp only [State.getLsbD_status]; rfl
  · simp only [State.getLsbD_status]; rfl
  · refine BitVec.eq_of_getLsbD_eq fun k hk => ?_
    rw [BitVec.getLsbD_extractLsb', State.getLsbD_status]
    simp [hk, show ¬ 3 + k = 1 by omega, show ¬ 3 + k = 2 by omega]
  · refine BitVec.eq_of_getLsbD_eq fun k hk => ?_
    rw [BitVec.getLsbD_extractLsb', State.getLsbD_status]
    simp [show ¬ 6 + k = 1 by omega, show ¬ 6 + k = 2 by omega, BitVec.getLsbD_of_ge s.cause (6 + k - 3) (by omega)]
  · rw [State.LatchInv, hf] at hlatch
    obtain ⟨hc, -⟩ : s.cause = 0 ∧ s.finfo = 0 := hlatch
    refine BitVec.eq_of_getLsbD_eq fun k hk => ?_
    rw [BitVec.getLsbD_extractLsb', State.getLsbD_status]
    simp [hc, hf, show ¬ 2 + k = 1 by omega]

/-! ### The position on CMD -/

/-- Settles O18. -/
theorem pcMovesPastTheCommand : Obligations.PcMovesPastTheCommand := by
  unfold Obligations.PcMovesPastTheCommand
  intro s t hreset hstep
  rcases step_cases hstep with ⟨h, -⟩ | ⟨-, hfault, ⟨i, rest, hf, hx⟩ | ⟨op, -, rfl⟩⟩
  · rw [hreset] at h; cases h
  · cases performed_of_exec hx with
    | completes => exact ⟨rfl, .inl ⟨hfault, i, rest, hf, by rw [length_encode, State.commit_pc]⟩⟩
    | faults => exact ⟨rfl, .inr ⟨rfl, rfl⟩⟩
  · exact ⟨rfl, .inr ⟨rfl, rfl⟩⟩

/-! ### Frames -/

/-- R28 (b): an effect on the pad is a Start's or a Finish's. -/
theorem pad_of_hmacEffect {m : SegSpace} {i : Instr} {u u' : HmacUnit} {rs : List (List Byte)}
    (h : hmacEffect m i u = some (u', rs)) :
    u'.pad = u.pad ∨ (∃ key, i = .hmacStart key) ∨ (i = .hmacFinish ∧ u'.pad = .idle) := by
  rcases hmacEffect_cases h with ⟨-, rfl | ⟨key, hi, -⟩ | ⟨bs, hs⟩⟩ | ⟨hi, t, hf, -⟩
  · exact .inl rfl
  · exact .inr (.inl ⟨key, hi⟩)
  · obtain ⟨opad, r, -, -, rfl⟩ := HmacUnit.update_eq_some.mp hs
    exact .inl rfl
  · obtain ⟨opad, r, -, -, -, rfl⟩ := HmacUnit.finish_eq_some.mp hf
    exact .inr (.inr ⟨hi, rfl⟩)

/-- R139: only a Finish touches OUTER. -/
theorem outer_of_hmacEffect {m : SegSpace} {i : Instr} {u u' : HmacUnit} {rs : List (List Byte)}
    (h : hmacEffect m i u = some (u', rs)) (hi : i ≠ .hmacFinish) : u'.outer = u.outer := by
  rcases hmacEffect_cases h with ⟨-, rfl | ⟨key, -, rfl⟩ | ⟨bs, hs⟩⟩ | ⟨hfin, -⟩
  · rfl
  · rfl
  · obtain ⟨opad, r, -, -, rfl⟩ := HmacUnit.update_eq_some.mp hs
    rfl
  · exact absurd hfin hi

/-- R34: a command that is no Finish of its unit emits nothing. -/
theorem records_of_shaEffect {m : SegSpace} {i : Instr} {e e' : Engine} {rs : List (List Byte)}
    (h : shaEffect m i e = some (e', rs)) (hi : i ≠ .shaFinish) : rs = [] := by
  rcases shaEffect_cases h with ⟨hrs, -⟩ | ⟨hfin, -⟩
  · exact hrs
  · exact absurd hfin hi

theorem records_of_hmacEffect {m : SegSpace} {i : Instr} {u u' : HmacUnit} {rs : List (List Byte)}
    (h : hmacEffect m i u = some (u', rs)) (hi : i ≠ .hmacFinish) : rs = [] := by
  rcases hmacEffect_cases h with ⟨hrs, -⟩ | ⟨hfin, -⟩
  · exact hrs
  · exact absurd hfin hi

theorem isSegmented_eq_false_of_isSha {i : Instr} (hi : i.isSha = true) (h : ∀ hd o l, i ≠ .shaUpdateSeg hd o l) :
    isSegmented i = false :=
  match i, hi, h with
  | .shaStart, _, _ => rfl
  | .shaUpdate _, _, _ => rfl
  | .shaUpdateSeg hd o l, _, h => absurd rfl (h hd o l)
  | .shaFinish, _, _ => rfl

theorem isSegmented_eq_false_of_not_isSha {i : Instr} (hi : i.isSha = false)
    (h : ∀ hd o l, i ≠ .hmacUpdateSeg hd o l) : isSegmented i = false :=
  match i, hi, h with
  | .hmacStart _, _, _ => rfl
  | .hmacUpdate _, _, _ => rfl
  | .hmacUpdateSeg hd o l, _, h => absurd rfl (h hd o l)
  | .hmacFinish, _, _ => rfl

/-- Settles O39. -/
theorem outerPadFixed : Obligations.OuterPadFixed := by
  unfold Obligations.OuterPadFixed
  intro i s t hx hstart
  cases performed_of_exec hx with
  | completes hsha hhmac =>
    rcases pad_of_hmacEffect hhmac with h | ⟨key, hi⟩ | h
    · exact .inl h
    · exact absurd hi (hstart key)
    · exact .inr h
  | faults => exact .inl rfl

/-- Settles O48: the effect on unit HMAC is none, and every other field is as `commit` or the fault leaves it. -/
theorem shaCommandFrame : Obligations.ShaCommandFrame := by
  unfold Obligations.ShaCommandFrame
  intro i s t hi hx
  cases performed_of_exec hx with
  | completes hsha hhmac hevs =>
    cases (hmacEffect_of_isSha s.seg s.hmac hi).symm.trans hhmac
    refine ⟨rfl, rfl, rfl, rfl, fun _ _ => rfl, fun hfin => ?_, fun hseg => ?_, .inl ⟨rfl, rfl, rfl, rfl⟩⟩
    · simp [records_of_shaEffect hsha hfin]
    · simp [hevs (isSegmented_eq_false_of_isSha hi hseg)]
  | faults _ hevs =>
    refine ⟨rfl, rfl, rfl, rfl, fun _ _ => rfl, fun _ => rfl, fun hseg => ?_, .inr ⟨rfl, rfl, rfl, rfl⟩⟩
    simp [hevs (isSegmented_eq_false_of_isSha hi hseg)]

/-- Settles O49: the effect on the engine `SHA` is none, and every other field is as `commit` or the fault leaves it. -/
theorem hmacCommandFrame : Obligations.HmacCommandFrame := by
  unfold Obligations.HmacCommandFrame
  intro i s t hi hx
  cases performed_of_exec hx with
  | completes hsha hhmac hevs =>
    cases (shaEffect_of_not_isSha s.seg s.sha hi).symm.trans hsha
    refine ⟨rfl, rfl, rfl, rfl, fun _ _ => rfl, fun hfin => ⟨?_, ?_⟩, fun hseg => ?_, .inl ⟨rfl, rfl, rfl, rfl⟩⟩
    · simp [records_of_hmacEffect hhmac hfin]
    · exact outer_of_hmacEffect hhmac hfin
    · simp [hevs (isSegmented_eq_false_of_not_isSha hi hseg)]
  | faults _ hevs =>
    refine ⟨rfl, rfl, rfl, rfl, fun _ _ => rfl, fun _ => ⟨rfl, rfl⟩, fun hseg => ?_, .inr ⟨rfl, rfl, rfl, rfl⟩⟩
    simp [hevs (isSegmented_eq_false_of_not_isSha hi hseg)]

end Sys2Proof.Machine
end

section
/-! The two units beside each other: what a command does depends on its own unit, and the two lists of commands
interleave freely (spec/10_state.md R37). -/

namespace Sys2Proof.Machine

/-! ### One command -/

/-- A command without a fault among its effects completes, whatever the rest of the state is. -/
theorem exec_of_effects {i : Instr} {s : State} {e : Engine} {u : HmacUnit} {rs rh : List (List Byte)}
    (hc : 1 ≤ s.chunk) (hsha : shaEffect s.seg i s.sha = some (e, rs))
    (hhmac : hmacEffect s.seg i s.hmac = some (u, rh)) :
    ∃ evs, exec i s = .next (s.commit i e u (rs ++ rh) evs) := by
  have h := exec_performed i s
  generalize exec i s = o at h
  cases h with
  | completes hsha' hhmac' =>
    cases hsha.symm.trans hsha'
    cases hhmac.symm.trans hhmac'
    exact ⟨_, rfl⟩
  | faults hnone => simp [hsha, hhmac] at hnone
  | outside h0 => omega

/-- A command with a fault among its effects takes one. -/
theorem exec_of_effects_none {i : Instr} {s : State} (hc : 1 ≤ s.chunk)
    (hnone : shaEffect s.seg i s.sha = none ∨ hmacEffect s.seg i s.hmac = none) :
    ∃ c evs, exec i s = .next ((s.logSeg evs).raiseFault c i.opcode) := by
  have h := exec_performed i s
  generalize exec i s = o at h
  cases h with
  | completes hsha hhmac => simp [hsha, hhmac] at hnone
  | faults => exact ⟨_, _, rfl⟩
  | outside h0 => omega

/-- R37: where its own unit agrees, a command without a fault has the same effect on it and the same records, and the
other unit has none. -/
theorem effects_of_agree {m : SegSpace} {i : Instr} {e e' ea : Engine} {u u' ua : HmacUnit} {rs rh : List (List Byte)}
    (hown : if i.isSha then e = e' else u = u')
    (hsha : shaEffect m i e = some (ea, rs)) (hhmac : hmacEffect m i u = some (ua, rh)) :
    ∃ eb ub, shaEffect m i e' = some (eb, rs) ∧ hmacEffect m i u' = some (ub, rh) ∧
      if i.isSha then ea = eb else ua = ub := by
  cases hi : i.isSha with
  | true =>
    rw [hi, if_pos rfl] at hown
    cases (hmacEffect_of_isSha m u hi).symm.trans hhmac
    exact ⟨ea, u', hown ▸ hsha, hmacEffect_of_isSha m u' hi, rfl⟩
  | false =>
    rw [hi, if_neg Bool.false_ne_true] at hown
    cases (shaEffect_of_not_isSha m e hi).symm.trans hsha
    exact ⟨e', ua, shaEffect_of_not_isSha m e' hi, hown ▸ hhmac, rfl⟩

/-- R37: where its own unit agrees, a command has a fault among its effects or has none. -/
theorem effects_none_of_agree {m : SegSpace} {i : Instr} {e e' : Engine} {u u' : HmacUnit}
    (hown : if i.isSha then e = e' else u = u') (hnone : shaEffect m i e = none ∨ hmacEffect m i u = none) :
    shaEffect m i e' = none ∨ hmacEffect m i u' = none := by
  cases hi : i.isSha with
  | true =>
    rw [hi, if_pos rfl] at hown
    rw [hmacEffect_of_isSha m u hi] at hnone
    exact .inl (hown ▸ hnone.resolve_right nofun)
  | false =>
    rw [hi, if_neg Bool.false_ne_true] at hown
    rw [shaEffect_of_not_isSha m e hi] at hnone
    exact .inr (hown ▸ hnone.resolve_left nofun)

/-- Settles O50: the command completes in both states with the same effect, or faults in both. -/
theorem unitSeesOnlyItself : Obligations.UnitSeesOnlyItself := by
  unfold Obligations.UnitSeesOnlyItself
  intro i s s' t _ hc' hseg hown hx
  cases performed_of_exec hx with
  | completes hsha hhmac =>
    obtain ⟨e', u', hsha', hhmac', hsame⟩ := effects_of_agree hown hsha hhmac
    obtain ⟨evs', hx'⟩ := exec_of_effects hc' (hseg ▸ hsha') (hseg ▸ hhmac')
    exact ⟨_, _, hx', hsame, rfl, rfl, by simp, fun h h' => h.trans h'.symm⟩
  | faults hnone =>
    obtain ⟨c', evs', hx'⟩ := exec_of_effects_none hc' (hseg ▸ effects_none_of_agree hown hnone)
    exact ⟨_, [], hx', hown, (List.append_nil _).symm, (List.append_nil _).symm, by simp, fun _ _ => rfl⟩

/-! ### Lists of commands -/

/-- What a list of commands makes of one unit by its effects, with the records emitted; none when one is a fault. -/
def effectAll {U : Type} (effect : Instr → U → Option (U × List (List Byte))) :
    List Instr → U → Option (U × List (List Byte))
  | [], u => some (u, [])
  | i :: is, u =>
    (effect i u).bind fun v => (effectAll effect is v.1).map fun w => (w.1, v.2 ++ w.2)

theorem effectAll_cons {U : Type} {effect : Instr → U → Option (U × List (List Byte))} {i : Instr} {is : List Instr}
    {u u1 u2 : U} {r1 r2 : List (List Byte)} (h1 : effect i u = some (u1, r1))
    (h2 : effectAll effect is u1 = some (u2, r2)) : effectAll effect (i :: is) u = some (u2, r1 ++ r2) := by
  simp [effectAll, h1, h2]

theorem effectAll_cons_eq_some {U : Type} {effect : Instr → U → Option (U × List (List Byte))} {i : Instr}
    {is : List Instr} {u u2 : U} {r : List (List Byte)} (h : effectAll effect (i :: is) u = some (u2, r)) :
    ∃ u1 r1 r2, effect i u = some (u1, r1) ∧ effectAll effect is u1 = some (u2, r2) ∧ r = r1 ++ r2 := by
  obtain ⟨v, hv, h⟩ := Option.bind_eq_some_iff.mp h
  obtain ⟨w, hw, h⟩ := Option.map_eq_some_iff.mp h
  cases h
  exact ⟨v.1, v.2, w.2, hv, hw, rfl⟩

/-- Commands without an effect on a unit may be left out. -/
theorem effectAll_filter {U : Type} {effect : Instr → U → Option (U × List (List Byte))} {own : Instr → Bool}
    (hother : ∀ i u, own i = false → effect i u = some (u, [])) (is : List Instr) (u : U) :
    effectAll effect (is.filter own) u = effectAll effect is u := by
  induction is generalizing u with
  | nil => rfl
  | cons i is ih =>
    cases hi : own i with
    | true => simp only [List.filter_cons, hi, if_true, effectAll, ih]
    | false => simp [hi, effectAll, hother i u hi, ih]

/-- A list of commands of the other unit makes nothing of a unit. -/
theorem effectAll_of_other {U : Type} {effect : Instr → U → Option (U × List (List Byte))} {own : Instr → Bool}
    (hother : ∀ i u, own i = false → effect i u = some (u, [])) {is : List Instr} (u : U)
    (his : ∀ i ∈ is, own i = false) : effectAll effect is u = some (u, []) := by
  rw [← effectAll_filter hother, List.filter_eq_nil_iff.mpr (by simpa using his)]; rfl

/-! ### Interleavings -/

theorem Interleaves.left_append {α : Type} (x : List α) {a b l : List α} (h : Interleaves a b l) :
    Interleaves (x ++ a) b (x ++ l) := by
  induction x with
  | nil => exact h
  | cons _ _ ih => exact .left ih

theorem Interleaves.right_append {α : Type} (x : List α) {a b l : List α} (h : Interleaves a b l) :
    Interleaves a (x ++ b) (x ++ l) := by
  induction x with
  | nil => exact h
  | cons _ _ ih => exact .right ih

theorem Interleaves.eq_left {α : Type} {a l : List α} (h : Interleaves a [] l) : l = a := by
  generalize hb : ([] : List α) = b at h
  induction h with
  | done => rfl
  | left _ ih => rw [ih hb]
  | right => cases hb

theorem Interleaves.eq_right {α : Type} {b l : List α} (h : Interleaves [] b l) : l = b := by
  generalize ha : ([] : List α) = a at h
  induction h with
  | done => rfl
  | left => cases ha
  | right _ ih => rw [ih ha]

/-! ### Runs without a fault -/

/-- A halted block performs no further command. -/
theorem performAll_of_faultBit {is : List Instr} {s t : State} (hf : s.faultBit = true)
    (h : performAll is s = .next t) : t = s := by
  cases is with
  | nil => cases h; rfl
  | cons i is => rw [performAll, if_pos hf] at h; cases h

theorem performAll_cons_eq_next {i : Instr} {is : List Instr} {s t : State} (h : performAll (i :: is) s = .next t) :
    ∃ s1, exec i s = .next s1 ∧ performAll is s1 = .next t := by
  rw [performAll] at h
  split at h
  · cases h
  · split at h
    · exact ⟨_, ‹_›, h⟩
    · cases h
    · cases h

theorem performAll_cons {i : Instr} (is : List Instr) {s s1 : State} (hf : s.faultBit = false)
    (h : exec i s = .next s1) : performAll (i :: is) s = performAll is s1 := by
  simp [performAll, hf, h]

/-- A run without a fault makes of each unit what its effects make of it, and emits an interleaving of the records. -/
theorem effectAll_of_performAll {is : List Instr} {s t : State} (h : performAll is s = .next t)
    (ht : t.faultBit = false) :
    ∃ rs rh records, effectAll (shaEffect s.seg) is s.sha = some (t.sha, rs) ∧
      effectAll (hmacEffect s.seg) is s.hmac = some (t.hmac, rh) ∧ Interleaves rs rh records ∧
      t.dout = s.dout ++ records := by
  induction is generalizing s with
  | nil => cases h; exact ⟨[], [], [], rfl, rfl, .done, (List.append_nil _).symm⟩
  | cons i is ih =>
    obtain ⟨s1, hx, h⟩ := performAll_cons_eq_next h
    cases performed_of_exec hx with
    | completes hsha hhmac =>
      obtain ⟨rs, rh, records, hs, hh, hil, hd⟩ := ih h
      refine ⟨_, _, _, effectAll_cons hsha hs, effectAll_cons hhmac hh, (hil.right_append _).left_append _, ?_⟩
      rw [hd, State.commit_dout, List.append_assoc, List.append_assoc]
    | faults => rw [performAll_of_faultBit rfl h] at ht; cases ht

/-- A list of commands whose effects are no faults runs without one. -/
theorem performAll_of_effectAll {is : List Instr} {s : State} {e : Engine} {u : HmacUnit} {rs rh : List (List Byte)}
    (hc : 1 ≤ s.chunk) (hf : s.faultBit = false) (hsha : effectAll (shaEffect s.seg) is s.sha = some (e, rs))
    (hhmac : effectAll (hmacEffect s.seg) is s.hmac = some (u, rh)) :
    ∃ t records, performAll is s = .next t ∧ t.faultBit = false ∧ t.sha = e ∧ t.hmac = u ∧
      Interleaves rs rh records ∧ t.dout = s.dout ++ records := by
  induction is generalizing s rs rh with
  | nil =>
    cases hsha
    cases hhmac
    exact ⟨s, [], rfl, hf, rfl, rfl, .done, (List.append_nil _).symm⟩
  | cons i is ih =>
    obtain ⟨e1, rs1, rs2, hs1, hs2, rfl⟩ := effectAll_cons_eq_some hsha
    obtain ⟨u1, rh1, rh2, hh1, hh2, rfl⟩ := effectAll_cons_eq_some hhmac
    obtain ⟨evs, hx⟩ := exec_of_effects hc hs1 hh1
    obtain ⟨t, records, hrun, htf, hts, hth, hil, hd⟩ := ih (s := s.commit i e1 u1 (rs1 ++ rh1) evs) hc hf hs2 hh2
    refine ⟨t, rs1 ++ (rh1 ++ records), (performAll_cons is hf hx).trans hrun, htf, hts, hth,
      (hil.right_append _).left_append _, ?_⟩
    rw [hd, State.commit_dout, List.append_assoc, List.append_assoc]

/-- Commands of unit SHA run alone by their effects on the engine `SHA`. -/
theorem performAll_sha {is : List Instr} {s : State} {e : Engine} {rs : List (List Byte)} (hc : 1 ≤ s.chunk)
    (hf : s.faultBit = false) (his : ∀ i ∈ is, i.isSha = true)
    (hsha : effectAll (shaEffect s.seg) is s.sha = some (e, rs)) :
    ∃ t, performAll is s = .next t ∧ t.faultBit = false ∧ t.sha = e ∧ t.hmac = s.hmac ∧ t.dout = s.dout ++ rs := by
  have hhmac := effectAll_of_other (effect := hmacEffect s.seg) (own := fun i => !i.isSha)
    (fun i u hi => hmacEffect_of_isSha s.seg u (by simpa using hi)) s.hmac (is := is) (by simpa using his)
  obtain ⟨t, records, hrun, htf, hts, hth, hil, hd⟩ := performAll_of_effectAll hc hf hsha hhmac
  exact ⟨t, hrun, htf, hts, hth, hil.eq_left ▸ hd⟩

/-- Commands of unit HMAC run alone by their effects on the unit `HMAC`. -/
theorem performAll_hmac {is : List Instr} {s : State} {u : HmacUnit} {rh : List (List Byte)} (hc : 1 ≤ s.chunk)
    (hf : s.faultBit = false) (his : ∀ i ∈ is, i.isSha = false)
    (hhmac : effectAll (hmacEffect s.seg) is s.hmac = some (u, rh)) :
    ∃ t, performAll is s = .next t ∧ t.faultBit = false ∧ t.sha = s.sha ∧ t.hmac = u ∧ t.dout = s.dout ++ rh := by
  have hsha := effectAll_of_other (effect := shaEffect s.seg) (own := fun i => i.isSha)
    (fun i e hi => shaEffect_of_not_isSha s.seg e hi) s.sha his
  obtain ⟨t, records, hrun, htf, hts, hth, hil, hd⟩ := performAll_of_effectAll hc hf hsha hhmac
  exact ⟨t, hrun, htf, hts, hth, hil.eq_right ▸ hd⟩

/-- Settles O51: the effects of the whole list on a unit are those of its own commands, which therefore run alone. -/
theorem unitsInterleaveFreely : Obligations.UnitsInterleaveFreely := by
  unfold Obligations.UnitsInterleaveFreely
  intro cs s t hc hf hrun htf
  obtain ⟨rs, rh, records, hsha, hhmac, hil, hd⟩ := effectAll_of_performAll hrun htf
  rw [← effectAll_filter (own := fun i => i.isSha) fun i e hi => shaEffect_of_not_isSha s.seg e hi] at hsha
  rw [← effectAll_filter (own := fun i => !i.isSha) fun i u hi => hmacEffect_of_isSha s.seg u (by simpa using hi)]
    at hhmac
  obtain ⟨ts, hruns, hfs, hes, -, hds⟩ := performAll_sha hc hf (fun i hi => (List.mem_filter.mp hi).2) hsha
  obtain ⟨th, hrunh, hfh, -, huh, hdh⟩ := performAll_hmac hc hf
    (fun i hi => by simpa using (List.mem_filter.mp hi).2) hhmac
  exact ⟨ts, th, rs, rh, records, hruns, hrunh, hfs, hfh, hes.symm, huh.symm, hds, hdh, hd, hil⟩

/-! ### Messages -/

theorem isSha_toSha (p : Piece) : p.toSha.isSha = true := by cases p <;> rfl

theorem isSha_toHmac (p : Piece) : p.toHmac.isSha = false := by cases p <;> rfl

/-- R155: a segmented Update within the content gives its unit what one Update with the piece's bytes gives it, where
that Update does not fault. -/
theorem segEffect_of_fits {U : Type} {active : Bool} {update : U → List Byte → Option U} {m : SegSpace} {h : Byte}
    {offset len : Word} {u u' : U} (ha : active = true) (hfit : offset.toNat + len.toNat ≤ segLen m h)
    (hempty : update u [] = some u) (hu : update u ((Piece.range h offset len).bytes m) = some u') :
    segEffect active update m h offset len u = some u' := by
  rw [segEffect, if_pos ⟨ha, hfit⟩, rangeFed]
  split
  · rename_i hl
    rwa [Piece.bytes, hl, List.take_zero, hempty] at hu
  · exact hu

/-- The Update of a piece that fits makes an active engine absorb the piece's bytes. -/
theorem shaEffect_toSha {m : SegSpace} {p : Piece} (r : EngineRegs) (hfit : p.fits m = true) :
    shaEffect m p.toSha (.running r) = some (.running (r.absorb (p.bytes m)), []) := by
  cases p with
  | flat p => rfl
  | range h o l =>
    have hseg : segEffect true Engine.update m h o l (.running r) = some (.running (r.absorb _)) :=
      segEffect_of_fits rfl (of_decide_eq_true hfit) (by simp [Engine.update]) rfl
    exact congrArg (Option.map _) hseg

/-- The Update of a piece that fits makes the INNER of an active unit absorb the piece's bytes. -/
theorem hmacEffect_toHmac {m : SegSpace} {p : Piece} (r : EngineRegs) (outer : Engine) (opad : List Byte)
    (hfit : p.fits m = true) :
    hmacEffect m p.toHmac ⟨.running r, outer, .retained opad⟩ =
      some (⟨.running (r.absorb (p.bytes m)), outer, .retained opad⟩, []) := by
  cases p with
  | flat p => rfl
  | range h o l =>
    have hseg : segEffect true HmacUnit.update m h o l ⟨.running r, outer, .retained opad⟩ =
        some ⟨.running (r.absorb _), outer, .retained opad⟩ :=
      segEffect_of_fits rfl (of_decide_eq_true hfit) (by simp [HmacUnit.update, Engine.update]) rfl
    exact congrArg (Option.map _) hseg

/-- Pieces that fit, sent to a unit that absorbs each, make it absorb the message. -/
theorem effectAll_pieces {U : Type} {effect : Instr → U → Option (U × List (List Byte))} {send : Piece → Instr}
    {holding : EngineRegs → U} {m : SegSpace}
    (hsend : ∀ p r, p.fits m = true → effect (send p) (holding r) = some (holding (r.absorb (p.bytes m)), []))
    (ps : List Piece) (r : EngineRegs) (hfit : ∀ p ∈ ps, p.fits m = true) :
    effectAll effect (ps.map send) (holding r) = some (holding (r.absorb (messageOf m ps)), []) := by
  induction ps generalizing r with
  | nil => simp [effectAll, messageOf]
  | cons p ps ih =>
    obtain ⟨hp, hps⟩ := List.forall_mem_cons.mp hfit
    have h := effectAll_cons (hsend p r hp) (ih (r.absorb (p.bytes m)) hps)
    rwa [absorb_append] at h

/-- Settles O38. -/
theorem unitsHoldTheMessage : Obligations.UnitsHoldTheMessage := by
  unfold Obligations.UnitsHoldTheMessage
  intro s key ps hf hc hfit m
  constructor
  · have hall := effectAll_cons (effect := shaEffect s.seg) (i := .shaStart) (u := s.sha) rfl
      (effectAll_pieces (fun p r hp => shaEffect_toSha r hp) ps EngineRegs.start hfit)
    obtain ⟨t, hrun, -, hsha, -⟩ := performAll_sha hc hf
      (List.forall_mem_cons.mpr ⟨rfl, List.forall_mem_map.mpr fun p _ => isSha_toSha p⟩) hall
    exact ⟨t, hrun, by rw [hsha, start_absorb]⟩
  · have hstart : hmacEffect s.seg (.hmacStart key) s.hmac =
        some (⟨.running (EngineRegs.start.absorb (ipadOf key)), s.hmac.outer, .retained (opadOf key)⟩, []) := by
      rw [hmacEffect, HmacUnit.start_eq]
    have hall := effectAll_cons hstart (effectAll_pieces
      (holding := fun r => (⟨.running r, s.hmac.outer, .retained (opadOf key)⟩ : HmacUnit))
      (fun p r hp => hmacEffect_toHmac r s.hmac.outer (opadOf key) hp) ps _ hfit)
    obtain ⟨t, hrun, -, -, hhmac, -⟩ := performAll_hmac hc hf
      (List.forall_mem_cons.mpr ⟨rfl, List.forall_mem_map.mpr fun p _ => isSha_toHmac p⟩) hall
    refine ⟨t, hrun, ?_⟩
    rw [hhmac, absorb_append, start_absorb, leftover_append_of_mod_eq_zero _ (by rw [length_ipadOf]),
      List.length_append, length_ipadOf]

end Sys2Proof.Machine
end

section
/-! The SEG port and the host's replacement of a buffer (spec/20_memory.md R52, R64), and the records of DOUT (R55). -/

namespace Sys2Proof.Machine

/-! ### One read request -/

/-- A read request has no answer exactly outside the precondition of R52. -/
theorem segRead_eq_none {m : SegSpace} {chunk : Nat} {r : SegRequest} :
    segRead m chunk r = none ↔ ¬ (1 ≤ r.count ∧ r.count ≤ chunk ∧ r.offset + r.count ≤ segLen m r.handle) :=
  ite_eq_right_iff.trans (imp_congr_right fun _ => iff_false_intro (Option.some_ne_none _))

/-- R52: an answer has as many bytes as were asked for. -/
theorem length_of_segRead {m : SegSpace} {chunk : Nat} {r : SegRequest} {bs : List Byte}
    (h : segRead m chunk r = some bs) : bs.length = r.count := by
  obtain ⟨⟨-, -, hend⟩, rfl⟩ := segRead_eq_some.mp h
  rw [segLen] at hend
  rw [List.length_take, List.length_drop]
  omega

/-- R52: the bytes of an answer are those of the buffer from the request's offset on. -/
theorem getElem?_of_segRead {m : SegSpace} {chunk : Nat} {r : SegRequest} {bs : List Byte}
    (h : segRead m chunk r = some bs) {k : Nat} (hk : k < r.count) : bs[k]? = segByte m r.handle (r.offset + k) := by
  obtain ⟨-, rfl⟩ := segRead_eq_some.mp h
  rw [List.getElem?_take_of_lt hk, List.getElem?_drop, segByte]

/-- Settles O42. -/
theorem segReadGivesTheBytes : Obligations.SegReadGivesTheBytes := by
  unfold Obligations.SegReadGivesTheBytes
  exact fun m chunk r => ⟨segRead_eq_none, fun bs h => ⟨length_of_segRead h, fun k hk => getElem?_of_segRead h hk⟩⟩

/-! ### The host's replacement of a buffer -/

/-- R197: the host's replacement of a buffer keeps the invariant. -/
theorem State.inv_setBuffer {s : State} (h : Byte) (content : List Byte) (hs : s.Inv) :
    (s.setBuffer h content).Inv where
  sha := hs.sha
  hmac := hs.hmac
  latch := hs.latch
  pc := hs.pc
  records := hs.records
  seg := setBuffer_seg_wf h content hs.seg
  chunk := hs.chunk

/-- Settles O43, by what a buffer holds after a replacement of itself and of another. -/
theorem hostReplacesABuffer : Obligations.HostReplacesABuffer := by
  unfold Obligations.HostReplacesABuffer
  intro s h content
  refine ⟨fun hwf => ?_, fun h' hne o => ?_, rfl, State.inv_setBuffer h content⟩
  · exact segContent_segPut_same h content ((SegSpace.wf_iff s.seg).mp hwf).1
  · have hother : segContent (s.setBuffer h content).seg h' = segContent s.seg h' :=
      segContent_segPut_other content fun heq => hne (BitVec.eq_of_toNat_eq heq.symm)
    rw [segByte, segByte, hother]

/-! ### The reads of a command -/

/-- Every read request among the events is one the SEG port answers. -/
def ReadsAnswered (m : SegSpace) (chunk : Nat) (evs : List SegEvent) : Prop :=
  ∀ r, .read r ∈ evs → ∃ bs, segRead m chunk r = some bs

/-- A query alone reads nothing. -/
theorem readsAnswered_query (m : SegSpace) (chunk : Nat) (h : Byte) : ReadsAnswered m chunk [.query h] := by
  intro r hr
  simp at hr

/-- The loop of R152 ends well only when each of its requests was answered. -/
theorem segRead_of_segFeed_done {U : Type} {update : U → List Byte → Option U} {m : SegSpace} {chunk : Nat}
    {rs : List SegRequest} {u u' : U} (h : segFeed update m chunk rs u = .done u') :
    ∀ r ∈ rs, ∃ bs, segRead m chunk r = some bs := by
  induction rs generalizing u with
  | nil => nofun
  | cons r rs ih =>
    obtain ⟨scratch, u1, hread, -, hrest⟩ := segFeed_done_cons.mp h
    exact List.forall_mem_cons.mpr ⟨⟨scratch, hread⟩, ih hrest⟩

/-- The events of a segmented Update that completes: its query, and reads that were each answered. -/
theorem readsAnswered_of_segFeed_done {U : Type} {update : U → List Byte → Option U} {m : SegSpace} {chunk : Nat}
    {rs : List SegRequest} {u u' : U} (h : Byte) (hfeed : segFeed update m chunk rs u = .done u') :
    ReadsAnswered m chunk (.query h :: rs.map .read) := by
  intro r hr
  have hmem : r ∈ rs := by simpa using hr
  exact segRead_of_segFeed_done hfeed r hmem

/-- The reads a segmented Update records were answered, whether it completes or faults. -/
theorem segTrace_of_segUpdate {U : Type} {active : Bool} {update : U → List Byte → Option U} {u : U}
    {put : State → U → State} {i : Instr} {h : Byte} {offset len : Word} {s t : State}
    (hput : ∀ s u, (put s u).segTrace = s.segTrace)
    (hx : segUpdate active update u put i h offset len s = .next t) :
    ∃ evs, t.segTrace = s.segTrace ++ evs ∧ ReadsAnswered s.seg s.chunk evs := by
  rcases segUpdate_cases active update u put i h offset len s with
    ⟨-, e⟩ | ⟨-, -, e⟩ | ⟨-, -, ⟨u', hfeed, e⟩ | ⟨-, e⟩ | ⟨-, e⟩⟩ <;> cases e.symm.trans hx
  · exact ⟨[], by simp, nofun⟩
  · exact ⟨[.query h], by simp, readsAnswered_query _ _ h⟩
  · exact ⟨_, by simp [hput], readsAnswered_of_segFeed_done h hfeed⟩
  · exact ⟨[.query h], by simp, readsAnswered_query _ _ h⟩

/-- A command that is no segmented Update leaves the SEG port's record as it is. -/
theorem segTrace_of_exec {i : Instr} {s t : State} (hi : isSegmented i = false) (hx : exec i s = .next t) :
    t.segTrace = s.segTrace := by
  cases performed_of_exec hx with
  | completes _ _ hevs => simp [hevs hi]
  | faults _ hevs => simp [hevs hi]

/-- Every read a command issues is answered. -/
theorem readsAnswered_of_exec {i : Instr} {s t : State} (hx : exec i s = .next t) :
    ∃ evs, t.segTrace = s.segTrace ++ evs ∧ ReadsAnswered s.seg s.chunk evs := by
  cases hi : isSegmented i with
  | false => exact ⟨[], by simp [segTrace_of_exec hi hx], nofun⟩
  | true =>
    match i, hi, hx with
    | .shaUpdateSeg _ _ _, _, hx => exact segTrace_of_segUpdate State.setSha_segTrace hx
    | .hmacUpdateSeg _ _ _, _, hx => exact segTrace_of_segUpdate State.setHmac_segTrace hx

/-- U9: no command stops on a read request when `CHUNK` is at least 1. -/
theorem exec_ne_segReadOutside (i : Instr) {s : State} (hc : 1 ≤ s.chunk) : exec i s ≠ .fault .segReadOutside := by
  intro hx
  cases hx ▸ exec_performed i s with
  | outside hzero => omega

/-- Settles O46: a read that was answered lies within the port's precondition. -/
theorem segReadsStayInRange : Obligations.SegReadsStayInRange := by
  unfold Obligations.SegReadsStayInRange
  refine fun i s => ⟨exec_ne_segReadOutside i, fun t hx => ?_⟩
  obtain ⟨evs, htrace, hreads⟩ := readsAnswered_of_exec hx
  refine ⟨evs, htrace, fun r hr => ?_⟩
  obtain ⟨bs, hread⟩ := hreads r hr
  exact (segRead_eq_some.mp hread).1

/-! ### The records of a command -/

/-- R55: `SHA.FINISH` emits one record, of 32 bytes. -/
theorem records_of_shaFinish {m : SegSpace} {e e' : Engine} {rs : List (List Byte)}
    (h : shaEffect m .shaFinish e = some (e', rs)) : ∃ v : List Byte, v.length = 32 ∧ rs = [v] := by
  obtain ⟨⟨d, e1⟩, hf, heq⟩ := Option.map_eq_some_iff.mp h
  obtain ⟨r, -, rfl, -⟩ := Engine.finish_eq_some.mp hf
  cases heq
  exact ⟨_, length_finish r, rfl⟩

/-- R55: `HMAC.FINISH` emits one record, of 32 bytes. -/
theorem records_of_hmacFinish {m : SegSpace} {u u' : HmacUnit} {rs : List (List Byte)}
    (h : hmacEffect m .hmacFinish u = some (u', rs)) : ∃ v : List Byte, v.length = 32 ∧ rs = [v] := by
  obtain ⟨⟨d, u1⟩, hf, heq⟩ := Option.map_eq_some_iff.mp h
  obtain ⟨opad, r, -, -, rfl, -⟩ := HmacUnit.finish_eq_some.mp hf
  cases heq
  exact ⟨_, length_finish _, rfl⟩

/-- R55: the two effects of a Finish emit one record between them. -/
theorem records_of_finish {m : SegSpace} {i : Instr} {e e' : Engine} {u u' : HmacUnit} {rs rh : List (List Byte)}
    (hsha : shaEffect m i e = some (e', rs)) (hhmac : hmacEffect m i u = some (u', rh))
    (hi : i = .shaFinish ∨ i = .hmacFinish) : ∃ v : List Byte, v.length = 32 ∧ rs ++ rh = [v] := by
  rcases hi with rfl | rfl
  · obtain ⟨v, hv, rfl⟩ := records_of_shaFinish hsha
    exact ⟨v, hv, by rw [records_of_hmacEffect hhmac nofun, List.append_nil]⟩
  · obtain ⟨v, hv, rfl⟩ := records_of_hmacFinish hhmac
    exact ⟨v, hv, by rw [records_of_shaEffect hsha nofun, List.nil_append]⟩

/-- Settles O19: a command that completes emits the records of its effects, and one that faults emits none. -/
theorem oneRecordPerFinish : Obligations.OneRecordPerFinish := by
  unfold Obligations.OneRecordPerFinish
  intro i s t hf hx
  cases performed_of_exec hx with
  | faults => simp
  | completes hsha hhmac =>
    by_cases hi : i = .shaFinish ∨ i = .hmacFinish
    · rw [if_pos ⟨hi, hf⟩]
      obtain ⟨v, hv, hrec⟩ := records_of_finish hsha hhmac hi
      exact ⟨v, hv, by rw [State.commit_dout, hrec]⟩
    · rw [if_neg fun h => hi h.1]
      obtain ⟨hs, hh⟩ := not_or.mp hi
      simp [records_of_shaEffect hsha hs, records_of_hmacEffect hhmac hh]

end Sys2Proof.Machine
end

section
/-! The decoder on every byte sequence: encodings are read back, and what is illegal, incomplete or of known length
(spec/30_encoding.md R70 to R79). -/

namespace Sys2Proof

/-! ### The decoder by opcode -/

section
variable (bs : List Byte)

@[simp] theorem decode_shaStart : decode (opShaStart :: bs) = .command .shaStart bs := rfl
@[simp] theorem decode_shaUpdate : decode (opShaUpdate :: bs) = decodePayload .shaUpdate bs := rfl
@[simp] theorem decode_shaUpdateSeg : decode (opShaUpdateSeg :: bs) = decodeRange .shaUpdateSeg bs := rfl
@[simp] theorem decode_shaFinish : decode (opShaFinish :: bs) = .command .shaFinish bs := rfl
@[simp] theorem decode_hmacStart : decode (opHmacStart :: bs) = decodePayload .hmacStart bs := rfl
@[simp] theorem decode_hmacUpdate : decode (opHmacUpdate :: bs) = decodePayload .hmacUpdate bs := rfl
@[simp] theorem decode_hmacUpdateSeg : decode (opHmacUpdateSeg :: bs) = decodeRange .hmacUpdateSeg bs := rfl
@[simp] theorem decode_hmacFinish : decode (opHmacFinish :: bs) = .command .hmacFinish bs := rfl

end

/-- A format `P` command is read in full or has not arrived in full. -/
theorem decodePayload_cases (mk : List Byte → Instr) (bs : List Byte) :
    (∃ i rest, decodePayload mk bs = .command i rest) ∨ decodePayload mk bs = .incomplete := by
  cases h : decodePayload mk bs with
  | command i rest => exact .inl ⟨i, rest, rfl⟩
  | illegal op => exact absurd h decodePayload_ne_illegal
  | incomplete => exact .inr rfl
  | endOfStream =>
    unfold decodePayload at h
    split at h
    · dsimp only at h
      split at h <;> cases h
    · cases h

/-- A format `S` command is read in full or has not arrived in full. -/
theorem decodeRange_cases (mk : Byte → Word → Word → Instr) (bs : List Byte) :
    (∃ i rest, decodeRange mk bs = .command i rest) ∨ decodeRange mk bs = .incomplete := by
  unfold decodeRange
  split
  · exact .inl ⟨_, _, rfl⟩
  · exact .inr rfl

/-- An opcode of the map starts a command, which is read in full or has not arrived in full. -/
theorem decode_cons_of_mem {op : Byte} (bs : List Byte) (hop : op ∈ opcodeMap.map OpcodeRow.opcode) :
    (∃ i rest, decode (op :: bs) = .command i rest) ∨ decode (op :: bs) = .incomplete := by
  have hcases : op = opShaStart ∨ op = opShaUpdate ∨ op = opShaUpdateSeg ∨ op = opShaFinish ∨ op = opHmacStart ∨
      op = opHmacUpdate ∨ op = opHmacUpdateSeg ∨ op = opHmacFinish := by simpa [opcodeMap] using hop
  rcases hcases with rfl | rfl | rfl | rfl | rfl | rfl | rfl | rfl
  · exact .inl ⟨_, _, decode_shaStart bs⟩
  · rw [decode_shaUpdate]; exact decodePayload_cases _ bs
  · rw [decode_shaUpdateSeg]; exact decodeRange_cases _ bs
  · exact .inl ⟨_, _, decode_shaFinish bs⟩
  · rw [decode_hmacStart]; exact decodePayload_cases _ bs
  · rw [decode_hmacUpdate]; exact decodePayload_cases _ bs
  · rw [decode_hmacUpdateSeg]; exact decodeRange_cases _ bs
  · exact .inl ⟨_, _, decode_hmacFinish bs⟩

/-- R77: an opcode outside the map is illegal, whatever follows it. -/
theorem decode_cons_of_not_mem {op : Byte} (bs : List Byte) (hop : op ∉ opcodeMap.map OpcodeRow.opcode) :
    decode (op :: bs) = .illegal op := by
  simp only [opcodeMap, List.map_cons, List.map_nil, List.mem_cons, List.not_mem_nil, or_false, not_or] at hop
  simp only [decode, hop, if_false]

/-- R77: the illegal opcodes are those outside the map. -/
theorem decode_cons_eq_illegal {op : Byte} {bs : List Byte} :
    decode (op :: bs) = .illegal op ↔ op ∉ opcodeMap.map OpcodeRow.opcode := by
  refine ⟨fun h hop => ?_, decode_cons_of_not_mem bs⟩
  rcases decode_cons_of_mem bs hop with ⟨i, rest, h'⟩ | h' <;> cases h.symm.trans h'

/-! ### Encodings -/

/-- R72: a payload that fits is read back. -/
theorem decodePayload_of_encodePayload (mk : List Byte → Instr) {p : List Byte} (rest : List Byte)
    (hp : payloadFits p = true) :
    decodePayload mk (be32 (BitVec.ofNat 32 p.length) ++ p ++ rest) = .command (mk p) rest :=
  decodePayload_eq_command.mpr
    ⟨_, p, by rw [BitVec.toNat_ofNat, Nat.mod_eq_of_lt (payloadFits_iff.mp hp)], rfl, rfl⟩

/-- R73: the three fields are read back. -/
theorem decodeRange_of_encodeRange (mk : Byte → Word → Word → Instr) (h : Byte) (o l : Word) (rest : List Byte) :
    decodeRange mk (h :: be32 o ++ be32 l ++ rest) = .command (mk h o l) rest :=
  decodeRange_eq_command.mpr ⟨h, o, l, rfl, rfl⟩

/-- R71 to R76: an encodable command is read back, with the bytes after it. -/
theorem decode_encode_append {i : Instr} (rest : List Byte) (hi : i.wf = true) :
    decode (encode i ++ rest) = .command i rest := by
  cases i with
  | shaStart => exact decode_shaStart rest
  | shaUpdate p => exact (decode_shaUpdate _).trans (decodePayload_of_encodePayload _ rest hi)
  | shaUpdateSeg h o l => exact (decode_shaUpdateSeg _).trans (decodeRange_of_encodeRange _ h o l rest)
  | shaFinish => exact decode_shaFinish rest
  | hmacStart key => exact (decode_hmacStart _).trans (decodePayload_of_encodePayload _ rest hi)
  | hmacUpdate p => exact (decode_hmacUpdate _).trans (decodePayload_of_encodePayload _ rest hi)
  | hmacUpdateSeg h o l => exact (decode_hmacUpdateSeg _).trans (decodeRange_of_encodeRange _ h o l rest)
  | hmacFinish => exact decode_hmacFinish rest

/-- Settles O1. -/
theorem decodeOfEncode : Obligations.DecodeOfEncode := by
  unfold Obligations.DecodeOfEncode
  exact fun _ rest hi => decode_encode_append rest hi

/-- Settles O2. -/
theorem encodeOfDecode : Obligations.EncodeOfDecode := by
  unfold Obligations.EncodeOfDecode
  exact fun _ _ _ h => encode_append_of_decode h

/-- Settles O6. -/
theorem sampleCommandsDecode : Obligations.SampleCommandsDecode := by
  unfold Obligations.SampleCommandsDecode
  decide

/-! ### Lengths -/

/-- R74: the length of a format `P` command stands in the four bytes after its opcode. -/
theorem commandLength_encodePayload {op : Byte} {p : List Byte} (other : List Byte)
    (hop : (opcodeMap.find? fun row => row.opcode == op).map OpcodeRow.format = some .formatP)
    (hp : payloadFits p = true) : commandLength ((encodePayload op p).take 5 ++ other) = some (5 + p.length) := by
  show commandLength (op :: (be32 (BitVec.ofNat 32 p.length) ++ other)) = _
  simp only [commandLength, hop, be32_eq, List.cons_append, unbe32_of_be32, BitVec.toNat_ofNat,
    Nat.mod_eq_of_lt (payloadFits_iff.mp hp)]

/-- R74: five bytes give a command's length. -/
theorem commandLength_take_encode {i : Instr} (other : List Byte) (hi : i.wf = true) :
    commandLength ((encode i).take 5 ++ other) = some i.size := by
  cases i with
  | shaStart => rfl
  | shaUpdate p => exact commandLength_encodePayload other rfl hi
  | shaUpdateSeg h o l => rfl
  | shaFinish => rfl
  | hmacStart key => exact commandLength_encodePayload other rfl hi
  | hmacUpdate p => exact commandLength_encodePayload other rfl hi
  | hmacUpdateSeg h o l => rfl
  | hmacFinish => rfl

/-- Settles O3. -/
theorem lengthFromFirstFiveBytes : Obligations.LengthFromFirstFiveBytes := by
  unfold Obligations.LengthFromFirstFiveBytes
  intro i other hi
  rw [length_encode]
  exact ⟨commandLength_take_encode other hi, by cases i <;> rfl⟩

/-! ### Incomplete commands -/

/-- An encoding begins with its command's opcode. -/
theorem exists_encode_eq_cons (i : Instr) : ∃ tl, encode i = i.opcode :: tl := by
  cases i <;> exact ⟨_, rfl⟩

/-- R79: a part of an encoding starts a command, but cannot be read as one, since the whole encoding would then be that
command with bytes left over. -/
theorem decode_take_encode {i : Instr} {n : Nat} (hi : i.wf = true) (h0 : 0 < n) (hn : n < (encode i).length) :
    decode ((encode i).take n) = .incomplete := by
  obtain ⟨k, rfl⟩ := Nat.exists_eq_add_one.mpr h0
  obtain ⟨tl, htl⟩ := exists_encode_eq_cons i
  have hcases := decode_cons_of_mem (tl.take k) (opcode_mem_map i)
  rw [← List.take_succ_cons, ← htl] at hcases
  refine hcases.resolve_left ?_
  rintro ⟨j, rest, hj⟩
  obtain ⟨hwf, hbytes⟩ := encode_append_of_decode hj
  have hwhole := decode_encode_append (rest ++ (encode i).drop (k + 1)) hwf
  rw [← List.append_assoc, hbytes, List.take_append_drop, ← List.append_nil (encode i),
    decode_encode_append [] hi] at hwhole
  have hnil := (Decoded.command.inj hwhole).2
  simp only [List.append_nil, List.nil_eq, List.append_eq_nil_iff, List.drop_eq_nil_iff] at hnil
  omega

end Sys2Proof
end

section
/-! The sequencer over a stream of encoded commands (spec/30_encoding.md R77, R79 to R81). -/

namespace Sys2Proof.Machine

/-! ### A step by what stands at `pc` -/

section
variable {s : State} (hreset : s.resetLine = false) (hfault : s.faultBit = false)
include hreset hfault

/-- R80: a complete command is performed. -/
theorem step_of_fetch_command {i : Instr} {rest : List Byte} (hf : s.fetch = .command i rest) : step s = exec i s := by
  simp only [step, hreset, hfault, hf, Bool.false_eq_true, if_false]

/-- R77: an illegal opcode raises its fault. -/
theorem step_of_fetch_illegal {op : Byte} (hf : s.fetch = .illegal op) :
    step s = .next (s.raiseFault .illegalCmd op) := by
  simp only [step, hreset, hfault, hf, Bool.false_eq_true, if_false, illegalCommand]

/-- R79: an incomplete command has no next state. -/
theorem step_of_fetch_incomplete (hf : s.fetch = .incomplete) : step s = .fault .incompleteCommand := by
  simp only [step, hreset, hfault, hf, Bool.false_eq_true, if_false]

/-- R196 (a): the exhausted stream has no next state. -/
theorem step_of_fetch_endOfStream (hf : s.fetch = .endOfStream) : step s = .fault .endOfStream := by
  simp only [step, hreset, hfault, hf, Bool.false_eq_true, if_false]

end

/-- R166: the halted block has no next state. -/
theorem step_of_halted {s : State} (hreset : s.resetLine = false) (hfault : s.faultBit = true) :
    step s = .fault .halted := by
  simp only [step, hreset, hfault, Bool.false_eq_true, if_true, if_false]

/-- R80: an encodable command at `pc` is what the sequencer reads. -/
theorem fetch_of_drop_eq {s : State} {i : Instr} {rest : List Byte} (hi : i.wf = true)
    (h : s.cmd.drop s.pc = encode i ++ rest) : s.fetch = .command i rest := by
  rw [State.fetch, h, decode_encode_append rest hi]

/-- Settles O7. -/
theorem stepRunsDecodedCommand : Obligations.StepRunsDecodedCommand := by
  unfold Obligations.StepRunsDecodedCommand
  exact fun s i rest hreset hfault hi h => step_of_fetch_command hreset hfault (fetch_of_drop_eq hi h)

/-- Settles O5. -/
theorem incompleteCommandWaits : Obligations.IncompleteCommandWaits := by
  unfold Obligations.IncompleteCommandWaits
  intro i n hi h0 hn
  have hdecode := decode_take_encode hi h0 hn
  refine ⟨hdecode, fun s hreset hfault h => step_of_fetch_incomplete hreset hfault ?_⟩
  rw [State.fetch, h, hdecode]

/-- Settles O4: the illegal opcodes are those outside the map; the step's fault is that of the byte at `pc`. -/
theorem illegalOpcodeFaultsAtOnce : Obligations.IllegalOpcodeFaultsAtOnce := by
  unfold Obligations.IllegalOpcodeFaultsAtOnce
  refine ⟨fun op rest => decode_cons_eq_illegal, ?_, fun s op hreset hfault hop hmem => ?_⟩
  · simp only [decode_cons_eq_illegal]
    decide +kernel
  · obtain ⟨hlt, rfl⟩ := List.getElem?_eq_some_iff.mp hop
    refine step_of_fetch_illegal hreset hfault ?_
    rw [State.fetch, List.drop_eq_getElem_cons hlt]
    exact decode_cons_of_not_mem _ hmem

/-! ### A stream of encoded commands -/

/-- What a command that answers a next state does to the stream and its position. -/
theorem stream_of_exec {i : Instr} {s t : State} (hx : exec i s = .next t) :
    t.cmd = s.cmd ∧ t.resetLine = s.resetLine ∧ (t.faultBit = false → t.pc = s.pc + i.size) := by
  cases performed_of_exec hx with
  | completes => exact ⟨rfl, rfl, fun _ => rfl⟩
  | faults => exact ⟨rfl, rfl, nofun⟩

/-- A halted block performs nothing, by its stream or by a list of commands. -/
theorem runSteps_eq_performAll_of_halted (cs : List Instr) {s : State} (hreset : s.resetLine = false)
    (hfault : s.faultBit = true) : runSteps cs.length s = performAll cs s := by
  cases cs with
  | nil => rfl
  | cons i cs => rw [List.length_cons, runSteps, step_of_halted hreset hfault, performAll, if_pos hfault]

/-- R70, R80, R81: stepping over a stream of encoded commands performs them. -/
theorem runSteps_eq_performAll {cs : List Instr} {s : State} {tail : List Byte} (hcs : ∀ i ∈ cs, i.wf = true)
    (hreset : s.resetLine = false) (h : s.cmd.drop s.pc = cs.flatMap encode ++ tail) :
    runSteps cs.length s = performAll cs s := by
  induction cs generalizing s with
  | nil => rfl
  | cons i cs ih =>
    obtain ⟨hi, hcs⟩ := List.forall_mem_cons.mp hcs
    cases hfault : s.faultBit with
    | true => exact runSteps_eq_performAll_of_halted _ hreset hfault
    | false =>
      rw [List.flatMap_cons, List.append_assoc] at h
      rw [List.length_cons, runSteps, step_of_fetch_command hreset hfault (fetch_of_drop_eq hi h), performAll,
        if_neg (by simp [hfault])]
      cases hx : exec i s with
      | fault r => rfl
      | refused r => rfl
      | next t =>
        obtain ⟨hcmd, hreset', hpc⟩ := stream_of_exec hx
        rw [hreset] at hreset'
        cases hfault' : t.faultBit with
        | true => exact runSteps_eq_performAll_of_halted cs hreset' hfault'
        | false =>
          refine ih hcs hreset' ?_
          rw [hcmd, hpc hfault', ← List.drop_drop, h, ← length_encode, List.drop_left]

/-- Settles O20. -/
theorem streamRunIsCommandList : Obligations.StreamRunIsCommandList := by
  unfold Obligations.StreamRunIsCommandList
  exact fun _ _ _ hcs hreset h => runSteps_eq_performAll hcs hreset h

/-! ### The end of a program -/

/-- What a list of commands that answers a next state does to the stream and its position. -/
theorem stream_of_performAll {cs : List Instr} {s t : State} (h : performAll cs s = .next t) :
    t.cmd = s.cmd ∧ t.resetLine = s.resetLine ∧
      (t.faultBit = false → t.pc = s.pc + (cs.flatMap encode).length) := by
  induction cs generalizing s with
  | nil => cases h; exact ⟨rfl, rfl, fun _ => rfl⟩
  | cons i cs ih =>
    obtain ⟨s1, hx, h⟩ := performAll_cons_eq_next h
    obtain ⟨hcmd1, hreset1, hpc1⟩ := stream_of_exec hx
    obtain ⟨hcmd, hreset, hpc⟩ := ih h
    refine ⟨hcmd.trans hcmd1, hreset.trans hreset1, fun ht => ?_⟩
    cases hf : s1.faultBit with
    | true => rw [performAll_of_faultBit hf h, hf] at ht; cases ht
    | false => rw [hpc ht, hpc1 hf, List.flatMap_cons, List.length_append, length_encode, Nat.add_assoc]

/-- No command is refused. -/
theorem performAll_ne_refused (cs : List Instr) (s : State) (r : Refusal) : performAll cs s ≠ .refused r := by
  induction cs generalizing s with
  | nil => nofun
  | cons i cs ih =>
    rw [performAll]
    have hx := exec_performed i s
    generalize exec i s = o at hx
    split
    · nofun
    · cases hx with
      | completes => exact ih _
      | faults => exact ih _
      | outside => nofun

/-- One more step after `k` steps. -/
theorem runSteps_succ_of_next {k : Nat} {s t : State} (h : runSteps k s = .next t) : runSteps (k + 1) s = step t := by
  induction k generalizing s with
  | zero =>
    rw [← Host.Outcome.next.inj h, runSteps]
    cases step s <;> rfl
  | succ k ih =>
    rw [runSteps] at h ⊢
    cases hs : step s with
    | next s1 => rw [hs] at h; exact ih h
    | fault r => rw [hs] at h; cases h
    | refused r => rw [hs] at h; cases h

/-- A run that has ended stays so. -/
theorem runSteps_succ_of_fault {k : Nat} {s : State} {r : Fault} (h : runSteps k s = .fault r) :
    runSteps (k + 1) s = .fault r := by
  induction k generalizing s with
  | zero => cases h
  | succ k ih =>
    rw [runSteps] at h ⊢
    cases hs : step s with
    | next s1 => rw [hs] at h; exact ih h
    | fault r => rw [hs] at h; exact h
    | refused r => rw [hs] at h; cases h

/-- R196 (a): a program performed without a fault has exhausted its stream. -/
theorem pc_of_performAll {cs : List Instr} {s t : State} (hle : s.pc ≤ s.cmd.length)
    (hstream : s.cmd.drop s.pc = cs.flatMap encode) (h : performAll cs s = .next t) (ht : t.faultBit = false) :
    t.pc = t.cmd.length := by
  obtain ⟨hcmd, -, hpc⟩ := stream_of_performAll h
  rw [hpc ht, hcmd, ← hstream, List.length_drop]
  omega

/-- R196 (a): an exhausted stream ends the run. -/
theorem step_of_exhausted {s : State} (hreset : s.resetLine = false) (hfault : s.faultBit = false)
    (hpc : s.pc = s.cmd.length) : step s = .fault .endOfStream :=
  step_of_fetch_endOfStream hreset hfault (by rw [State.fetch, hpc, List.drop_length]; rfl)

/-- Settles O21: the `k` steps perform the `k` commands, and the step after them finds the block halted or the stream
exhausted. -/
theorem programsEnd : Obligations.ProgramsEnd := by
  unfold Obligations.ProgramsEnd
  intro cs s hcs hreset hle hstream
  have hrun : runSteps cs.length s = performAll cs s :=
    runSteps_eq_performAll hcs hreset (hstream.trans (List.append_nil _).symm)
  have hend : ∀ t, performAll cs s = .next t → t.faultBit = false →
      runSteps (cs.length + 1) s = .fault .endOfStream ∧ t.pc = t.cmd.length := by
    intro t h ht
    have hpc := pc_of_performAll hle hstream h ht
    obtain ⟨-, hreset', -⟩ := stream_of_performAll h
    exact ⟨(runSteps_succ_of_next (hrun.trans h)).trans (step_of_exhausted (hreset'.trans hreset) ht hpc), hpc⟩
  refine ⟨?_, hend⟩
  cases h : performAll cs s with
  | refused r => exact absurd h (performAll_ne_refused cs s r)
  | fault r => exact ⟨r, runSteps_succ_of_fault (hrun.trans h)⟩
  | next t =>
    cases ht : t.faultBit with
    | false => exact ⟨_, (hend t h ht).1⟩
    | true =>
      obtain ⟨-, hreset', -⟩ := stream_of_performAll h
      exact ⟨_, (runSteps_succ_of_next (hrun.trans h)).trans (step_of_halted (hreset'.trans hreset) ht)⟩

end Sys2Proof.Machine
end

section
/-! A flat Update of any length as commands (spec/30_encoding.md R85 (a)). -/

namespace Sys2Proof.Machine

/-! ### The pieces of a span -/

theorem splitSpan_of_length_le {limit : Nat} (cuts : Nat) {bs : List Byte} (h : bs.length ≤ limit) :
    splitSpan limit cuts bs = [bs] := by
  cases cuts with
  | zero => rfl
  | succ cuts => rw [splitSpan, if_pos h]

theorem splitSpan_of_lt_length {limit : Nat} (cuts : Nat) {bs : List Byte} (h : limit < bs.length) :
    splitSpan limit (cuts + 1) bs = bs.take limit :: splitSpan limit cuts (bs.drop limit) := by
  rw [splitSpan, if_neg (Nat.not_le.mpr h)]

theorem splitSpan_ne_nil (limit cuts : Nat) (bs : List Byte) : splitSpan limit cuts bs ≠ [] := by
  cases cuts with
  | zero => nofun
  | succ cuts => rw [splitSpan]; split <;> nofun

/-- The pieces are consecutive. -/
theorem flatten_splitSpan (limit cuts : Nat) (bs : List Byte) : (splitSpan limit cuts bs).flatten = bs := by
  induction cuts generalizing bs with
  | zero => simp [splitSpan]
  | succ cuts ih =>
    rcases Nat.lt_or_ge limit bs.length with h | h
    · rw [splitSpan_of_lt_length cuts h, List.flatten_cons, ih, List.take_append_drop]
    · simp [splitSpan_of_length_le _ h]

/-- Every piece but the last is as long as allowed. -/
theorem length_of_mem_dropLast_splitSpan {limit cuts : Nat} {bs p : List Byte}
    (hp : p ∈ (splitSpan limit cuts bs).dropLast) : p.length = limit := by
  induction cuts generalizing bs with
  | zero => cases hp
  | succ cuts ih =>
    rcases Nat.lt_or_ge limit bs.length with h | h
    · rw [splitSpan_of_lt_length cuts h, List.dropLast_cons_of_ne_nil (splitSpan_ne_nil _ _ _)] at hp
      rcases List.mem_cons.mp hp with rfl | hp
      · exact List.length_take_of_le h.le
      · exact ih hp
    · rw [splitSpan_of_length_le _ h] at hp
      cases hp

/-- With cuts enough for the span, no piece is longer than allowed. -/
theorem length_le_of_mem_splitSpan {limit cuts : Nat} {bs p : List Byte} (hbs : bs.length ≤ limit * (cuts + 1))
    (hp : p ∈ splitSpan limit cuts bs) : p.length ≤ limit := by
  induction cuts generalizing bs with
  | zero =>
    obtain rfl : p = bs := List.mem_singleton.mp hp
    simpa using hbs
  | succ cuts ih =>
    rcases Nat.lt_or_ge limit bs.length with h | h
    · rw [splitSpan_of_lt_length cuts h] at hp
      rcases List.mem_cons.mp hp with rfl | hp
      · exact List.length_take_le _ _
      · exact ih (by rw [List.length_drop]; rw [Nat.mul_succ] at hbs; omega) hp
    · rw [splitSpan_of_length_le _ h] at hp
      obtain rfl : p = bs := List.mem_singleton.mp hp
      exact h

/-- R72, R85 (a): every piece of a span can be encoded. -/
theorem payloadFits_of_mem_spanPieces {bs p : List Byte} (hp : p ∈ spanPieces bs) : payloadFits p = true := by
  have hle := length_le_of_mem_splitSpan (Nat.lt_mul_div_succ bs.length (by decide)).le hp
  exact payloadFits_iff.mpr (Nat.lt_of_le_of_lt hle (by decide))

/-! ### The commands of a span -/

/-- Updates sent to a unit that absorbs each make it absorb their bytes together. -/
theorem performAll_updates {send : List Byte → Instr} {holds : EngineRegs → State → Prop}
    (hsend : ∀ r s p, holds r s → ∃ t, exec (send p) s = .next t ∧ holds (r.absorb p) t ∧ t.faultBit = s.faultBit)
    (pieces : List (List Byte)) {r : EngineRegs} {s : State} (hf : s.faultBit = false) (hs : holds r s) :
    ∃ t, performAll (pieces.map send) s = .next t ∧ holds (r.absorb pieces.flatten) t ∧ t.faultBit = false := by
  induction pieces generalizing r s with
  | nil => exact ⟨s, rfl, by rwa [List.flatten_nil, absorb_nil], hf⟩
  | cons p pieces ih =>
    obtain ⟨s1, hx, hs1, hf1⟩ := hsend r s p hs
    obtain ⟨t, hrun, ht, htf⟩ := ih (hf1.trans hf) hs1
    refine ⟨t, (performAll_cons _ hf hx).trans hrun, ?_, htf⟩
    rwa [absorb_append] at ht

/-- R117: an active engine `SHA` absorbs an Update. -/
theorem exec_shaUpdate_of_running {s : State} {r : EngineRegs} (p : List Byte) (hs : s.sha = .running r) :
    exec (.shaUpdate p) s = complete (.shaUpdate p) (s.setSha (.running (r.absorb p))) := by
  simp only [exec, execShaUpdate, hs, Engine.update]

/-- R136: the INNER of an active unit `HMAC` absorbs an Update. -/
theorem exec_hmacUpdate_of_running {s : State} {r : EngineRegs} {outer : Engine} {opad : List Byte} (p : List Byte)
    (hs : s.hmac = ⟨.running r, outer, .retained opad⟩) :
    exec (.hmacUpdate p) s =
      complete (.hmacUpdate p) (s.setHmac ⟨.running (r.absorb p), outer, .retained opad⟩) := by
  simp only [exec, execHmacUpdate, hs, HmacUnit.update, Engine.update]

/-- Settles O52. -/
theorem longUpdateIsSplit : Obligations.LongUpdateIsSplit := by
  unfold Obligations.LongUpdateIsSplit
  intro data
  refine ⟨spanPieces data, rfl, rfl, splitSpan_of_length_le _, flatten_splitSpan _ _ data,
    fun p hp => length_of_mem_dropLast_splitSpan hp, fun p hp => payloadFits_of_mem_spanPieces hp, ?_, ?_⟩
  · intro s r hf hs
    have h := performAll_updates (send := .shaUpdate) (holds := fun r s => s.sha = .running r)
      (fun r s p hs => ⟨_, exec_shaUpdate_of_running p hs, rfl, rfl⟩) (spanPieces data) hf hs
    rwa [spanPieces, flatten_splitSpan] at h
  · intro s r outer opad hf hs
    have h := performAll_updates (send := .hmacUpdate)
      (holds := fun r s => s.hmac = ⟨.running r, outer, .retained opad⟩)
      (fun r s p hs => ⟨_, exec_hmacUpdate_of_running p hs, rfl, rfl⟩) (spanPieces data) hf hs
    rwa [spanPieces, flatten_splitSpan] at h

end Sys2Proof.Machine
end

section
/-! What the assembler accepts (spec/30_encoding.md R82, R83). -/

namespace Sys2Proof.Machine

/-- The tokens after a mnemonic are the operands of a command, written out (R75, R82). -/
def OperandsWritten (i : Instr) (ts : List Token) : Prop :=
  let range (h : Byte) (o l : Word) := ∃ hs os ls : List Char, ts = rangeTokens hs os ls ∧
    numberValue hs = some h.toNat ∧ numberValue os = some o.toNat ∧ numberValue ls = some l.toNat
  match i with
  | .shaStart => ts = []
  | .shaUpdate p => byteItems ts = some p
  | .shaUpdateSeg h o l => range h o l
  | .shaFinish => ts = []
  | .hmacStart key => byteItems ts = some key
  | .hmacUpdate p => byteItems ts = some p
  | .hmacUpdateSeg h o l => range h o l
  | .hmacFinish => ts = []

/-- What the operand function of an opcode takes is a command of that opcode which can be encoded and is written. -/
theorem written_of_operandsOf {op : Byte} {ts : List Token} {i : Instr} (h : operandsOf op ts = some i) :
    op = i.opcode ∧ i.wf = true ∧ OperandsWritten i ts := by
  unfold operandsOf at h
  split at h
  · obtain ⟨rfl, rfl⟩ := noOperand_eq_some.mp h; exact ⟨‹_›, rfl, rfl⟩
  split at h
  · obtain ⟨p, hp, hfit, rfl⟩ := byteOperand_eq_some.mp h; exact ⟨‹_›, hfit, hp⟩
  split at h
  · obtain ⟨hd, o, l, hs, os, ls, hts, h1, h2, h3, rfl⟩ := rangeOperand_eq_some.mp h
    exact ⟨‹_›, rfl, hs, os, ls, hts, h1, h2, h3⟩
  split at h
  · obtain ⟨rfl, rfl⟩ := noOperand_eq_some.mp h; exact ⟨‹_›, rfl, rfl⟩
  split at h
  · obtain ⟨p, hp, hfit, rfl⟩ := byteOperand_eq_some.mp h; exact ⟨‹_›, hfit, hp⟩
  split at h
  · obtain ⟨p, hp, hfit, rfl⟩ := byteOperand_eq_some.mp h; exact ⟨‹_›, hfit, hp⟩
  split at h
  · obtain ⟨hd, o, l, hs, os, ls, hts, h1, h2, h3, rfl⟩ := rangeOperand_eq_some.mp h
    exact ⟨‹_›, rfl, hs, os, ls, hts, h1, h2, h3⟩
  split at h
  · obtain ⟨rfl, rfl⟩ := noOperand_eq_some.mp h; exact ⟨‹_›, rfl, rfl⟩
  · cases h

/-- The operand function of a command's opcode takes the operands written. -/
theorem operandsOf_of_written {ts : List Token} {i : Instr} (hi : i.wf = true) (h : OperandsWritten i ts) :
    operandsOf i.opcode ts = some i := by
  cases i with
  | shaStart => exact noOperand_eq_some.mpr ⟨h, rfl⟩
  | shaUpdate p => exact byteOperand_eq_some.mpr ⟨p, h, hi, rfl⟩
  | shaUpdateSeg hd o l =>
    obtain ⟨hs, os, ls, hts, h1, h2, h3⟩ := h
    exact rangeOperand_eq_some.mpr ⟨hd, o, l, hs, os, ls, hts, h1, h2, h3, rfl⟩
  | shaFinish => exact noOperand_eq_some.mpr ⟨h, rfl⟩
  | hmacStart key => exact byteOperand_eq_some.mpr ⟨key, h, hi, rfl⟩
  | hmacUpdate p => exact byteOperand_eq_some.mpr ⟨p, h, hi, rfl⟩
  | hmacUpdateSeg hd o l =>
    obtain ⟨hs, os, ls, hts, h1, h2, h3⟩ := h
    exact rangeOperand_eq_some.mpr ⟨hd, o, l, hs, os, ls, hts, h1, h2, h3, rfl⟩
  | hmacFinish => exact noOperand_eq_some.mpr ⟨h, rfl⟩

/-- R76: no two rows of the opcode map share a mnemonic. -/
theorem find?_mnemonic_of_mem :
    ∀ row ∈ opcodeMap, (opcodeMap.find? fun r => r.mnemonic.toList == row.mnemonic.toList) = some row := by
  decide +kernel

/-- What a line of a mnemonic and its operands gives. -/
theorem assembleLine_of_lex {line : List Char} {row : OpcodeRow} {ts : List Token} (hrow : row ∈ opcodeMap)
    (hlex : lex .outside [] line = some (.word row.mnemonic.toList :: ts)) :
    assembleLine line = (operandsOf row.opcode ts).map some := by
  simp only [assembleLine, hlex, find?_mnemonic_of_mem row hrow]

/-- A line is a command exactly when it is a mnemonic of the map and operands taken for its opcode. -/
theorem assembleLine_eq_command {line : List Char} {i : Instr} :
    assembleLine line = some (some i) ↔ ∃ row ts, row ∈ opcodeMap ∧
      lex .outside [] line = some (.word row.mnemonic.toList :: ts) ∧ operandsOf row.opcode ts = some i := by
  constructor
  · intro h
    unfold assembleLine at h
    split at h
    · cases h
    · cases h
    · rename_i m ts hlex
      split at h
      · rename_i row hrow
        obtain rfl : row.mnemonic.toList = m := by simpa using List.find?_some hrow
        exact ⟨row, ts, List.mem_of_find?_eq_some hrow, hlex, by simpa using h⟩
      · cases h
    · cases h
  · rintro ⟨row, ts, hrow, hlex, hops⟩
    rw [assembleLine_of_lex hrow hlex, hops, Option.map_some]

/-- A line that is no error and no command has no token. -/
theorem assembleLine_eq_blank {line : List Char} :
    assembleLine line = some none ↔ lex .outside [] line = some [] := by
  constructor
  · intro h
    unfold assembleLine at h
    split at h
    · cases h
    · assumption
    · split at h
      · simp at h
      · cases h
    · cases h
  · intro hlex
    simp only [assembleLine, hlex]

/-- Settles O53. -/
theorem assembledCommandsEncodable : Obligations.AssembledCommandsEncodable := by
  unfold Obligations.AssembledCommandsEncodable
  refine ⟨fun line i => assembleLine_eq_command.trans ⟨?_, ?_⟩, fun line => assembleLine_eq_blank⟩
  · rintro ⟨row, ts, hrow, hlex, hops⟩
    obtain ⟨hop, hwf, hw⟩ := written_of_operandsOf hops
    exact ⟨hwf, row, ts, hrow, hop, hlex, hw⟩
  · rintro ⟨hwf, row, ts, hrow, hop, hlex, hw⟩
    exact ⟨row, ts, hrow, hlex, hop ▸ operandsOf_of_written hwf hw⟩

end Sys2Proof.Machine
end

section
/-! Numbers, words and quoted runs of the assembler's text (spec/30_encoding.md R82, R83). -/

namespace Sys2Proof.Machine

/-! ### Digits -/

/-- A digit written by `Nat.digitChar` is worth its value. -/
theorem digitValue_digitChar {n : Nat} (hn : n < 16) : digitValue (Nat.digitChar n) = some n := by
  revert n; decide

theorem digitsValue_append {base acc v : Nat} {cs : List Char} (ds : List Char)
    (h : digitsValue base acc cs = some v) : digitsValue base acc (cs ++ ds) = digitsValue base v ds := by
  induction cs generalizing acc with
  | nil => cases h; rfl
  | cons c cs ih =>
    rw [digitsValue] at h
    rw [List.cons_append, digitsValue]
    split at h
    · split at h
      · rename_i hlt
        simp only [if_pos hlt]
        exact ih h
      · cases h
    · cases h

theorem digitsValue_digitChar {base d : Nat} (acc : Nat) (hb : base ≤ 16) (hd : d < base) :
    digitsValue base acc [Nat.digitChar d] = some (acc * base + d) := by
  simp [digitsValue, digitValue_digitChar (Nat.lt_of_lt_of_le hd hb), hd]

/-- R82: the digits of a number in a base are worth the number. -/
theorem digitsValue_toDigits {base : Nat} (n : Nat) (h1 : 1 < base) (h16 : base ≤ 16) :
    digitsValue base 0 (Nat.toDigits base n) = some n := by
  induction n using Nat.base_induction base h1 with
  | single m hm =>
    rw [Nat.toDigits_of_lt_base hm, digitsValue_digitChar 0 h16 hm, Nat.zero_mul, Nat.zero_add]
  | digit m k hk hm ih =>
    rw [← Nat.toDigits_append_toDigits h1 hm hk, digitsValue_append _ ih, Nat.toDigits_of_lt_base hk,
      digitsValue_digitChar m h16 hk, Nat.mul_comm]

/-- R82: a number in `0x` hexadecimal. -/
theorem numberValue_hex (n : Nat) : numberValue ('0' :: 'x' :: Nat.toDigits 16 n) = some n := by
  have hval := digitsValue_toDigits n (base := 16) (by decide) (by decide)
  cases hds : Nat.toDigits 16 n with
  | nil => exact absurd hds Nat.toDigits_ne_nil
  | cons d ds => rw [numberValue, ← hds, hval]

/-- R82: a number in decimal. -/
theorem numberValue_decimal (n : Nat) : numberValue (Nat.toDigits 10 n) = some n := by
  have hval := digitsValue_toDigits n (base := 10) (by decide) (by decide)
  have hdigit : ∀ c ∈ Nat.toDigits 10 n, c.isDigit := fun c => Nat.isDigit_of_mem_toDigits (by decide) (by decide)
  unfold numberValue
  split
  · rename_i hds; exact absurd hds Nat.toDigits_ne_nil
  · rename_i hds; rw [hds] at hdigit; simp at hdigit
  · rename_i hds; rwa [hds] at hval

/-! ### Words -/

/-- A character that stands in a word: no space, no mark of a comment or of quotes, no punctuation. -/
def wordChar (c : Char) : Bool :=
  c ≠ '#' && c ≠ '"' && c ≠ ' ' && c ≠ '\t' && punctuation c = none

/-- What the lexer reads as one word. -/
def IsWord (w : List Char) : Prop := w ≠ [] ∧ w.all wordChar = true

/-- The lexer puts the characters of a word together. -/
theorem lex_outside_append {w : List Char} (cur rest : List Char) (hw : w.all wordChar = true) :
    lex .outside cur (w ++ rest) = lex .outside (cur ++ w) rest := by
  induction w generalizing cur with
  | nil => simp
  | cons c w ih =>
    obtain ⟨hc, hw⟩ := Bool.and_eq_true_iff.mp hw
    simp only [wordChar, ne_eq, Bool.and_eq_true, decide_eq_true_eq] at hc
    obtain ⟨⟨⟨⟨h1, h2⟩, h3⟩, h4⟩, h5⟩ := hc
    rw [List.cons_append, lex]
    simp only [h1, h2, h3, h4, h5, or_self, if_false]
    rw [ih _ hw, List.append_assoc, List.singleton_append]

theorem lex_space (cs : List Char) : lex .outside [] (' ' :: cs) = lex .outside [] cs := by
  have hid : withWord [] = id := rfl
  simp [lex, hid]

/-- A word at the end of the line. -/
theorem lex_word {w : List Char} (hw : IsWord w) : lex .outside [] w = some [.word w] := by
  have h := lex_outside_append [] [] hw.2
  rw [List.append_nil, List.nil_append] at h
  simp [h, lex, withWord, hw.1]

theorem withWord_of_isWord {w : List Char} (hw : IsWord w) : withWord w = (.word w :: ·) :=
  funext fun _ => if_neg hw.1

/-- A word that a space ends. -/
theorem lex_word_space {w : List Char} (cs : List Char) (hw : IsWord w) :
    lex .outside [] (w ++ ' ' :: cs) = (lex .outside [] cs).map (.word w :: ·) := by
  rw [lex_outside_append [] _ hw.2, List.nil_append]
  simp [lex, withWord_of_isWord hw]

/-- A word that a punctuation character ends. -/
theorem lex_word_punctuation {w : List Char} {c : Char} {t : Token} (cs : List Char) (hw : IsWord w)
    (hc : punctuation c = some t) :
    lex .outside [] (w ++ c :: cs) = (lex .outside [] cs).map (.word w :: t :: ·) := by
  have hplain : c ≠ '#' ∧ c ≠ '"' ∧ c ≠ ' ' ∧ c ≠ '\t' := by
    refine ⟨?_, ?_, ?_, ?_⟩ <;> rintro rfl <;> cases hc
  rw [lex_outside_append [] _ hw.2, List.nil_append, lex]
  simp only [hplain, hc, or_self, if_false, withWord_of_isWord hw]

/-- R82: the tokens of a mnemonic and a segmented range, spaced as the rule's own lines are. -/
theorem lex_range_line {m hs os ls : List Char} (hm : IsWord m) (hh : IsWord hs) (ho : IsWord os) (hl : IsWord ls) :
    lex .outside [] (m ++ (" h=".toList ++ hs ++ ", off=".toList ++ os ++ ", len=".toList ++ ls)) =
      some (.word m :: rangeTokens hs os ls) := by
  have htext : " h=".toList ++ hs ++ ", off=".toList ++ os ++ ", len=".toList ++ ls =
      ' ' :: (['h'] ++ '=' :: (hs ++ ',' :: (' ' :: (['o', 'f', 'f'] ++ '=' :: (os ++ ',' ::
        (' ' :: (['l', 'e', 'n'] ++ '=' :: ls))))))) := by simp
  have h1 : IsWord ['h'] := ⟨nofun, rfl⟩
  have h2 : IsWord ['o', 'f', 'f'] := ⟨nofun, rfl⟩
  have h3 : IsWord ['l', 'e', 'n'] := ⟨nofun, rfl⟩
  rw [htext, lex_word_space _ hm, lex_word_punctuation _ h1 rfl, lex_word_punctuation _ hh rfl, lex_space,
    lex_word_punctuation _ h2 rfl, lex_word_punctuation _ ho rfl, lex_space, lex_word_punctuation _ h3 rfl, lex_word hl]
  rfl

/-! ### The text of a segmented Update -/

theorem wordChar_digitChar {n : Nat} (hn : n < 16) : wordChar (Nat.digitChar n) = true := by
  revert n; decide

/-- The digits of a number make a word. -/
theorem isWord_toDigits {base : Nat} (n : Nat) (h1 : 1 < base) (h16 : base ≤ 16) : IsWord (Nat.toDigits base n) := by
  refine ⟨Nat.toDigits_ne_nil, List.all_eq_true.mpr ?_⟩
  induction n using Nat.base_induction base h1 with
  | single m hm =>
    rw [Nat.toDigits_of_lt_base hm]
    exact List.forall_mem_singleton.mpr (wordChar_digitChar (by omega))
  | digit m k hk hm ih =>
    rw [← Nat.toDigits_append_toDigits h1 hm hk, Nat.toDigits_of_lt_base hk]
    exact List.forall_mem_append.mpr ⟨ih, List.forall_mem_singleton.mpr (wordChar_digitChar (by omega))⟩

/-- A number written in either base is a word that is worth it. -/
theorem number_written {write : Nat → List Char} (n : Nat)
    (h : write = Nat.toDigits 10 ∨ write = fun n => '0' :: 'x' :: Nat.toDigits 16 n) :
    IsWord (write n) ∧ numberValue (write n) = some n := by
  rcases h with rfl | rfl
  · exact ⟨isWord_toDigits n (by decide) (by decide), numberValue_decimal n⟩
  · obtain ⟨-, hchars⟩ := isWord_toDigits n (base := 16) (by decide) (by decide)
    exact ⟨⟨nofun, hchars⟩, numberValue_hex n⟩

/-- R82: a range is taken when its three numbers fit their fields. -/
theorem rangeOperand_rangeTokens (mk : Byte → Word → Word → Instr) {hs os ls : List Char} {h o l : Nat}
    (hh : numberValue hs = some h) (ho : numberValue os = some o) (hl : numberValue ls = some l) :
    rangeOperand mk (rangeTokens hs os ls) =
      if h < 2 ^ 8 ∧ o < 2 ^ 32 ∧ l < 2 ^ 32 then
        some (mk (BitVec.ofNat 8 h) (BitVec.ofNat 32 o) (BitVec.ofNat 32 l))
      else none := by
  split
  · rename_i hfit
    obtain ⟨h1, h2, h3⟩ := hfit
    refine rangeOperand_eq_some.mpr ⟨_, _, _, hs, os, ls, rfl, ?_, ?_, ?_, rfl⟩
    · rw [hh, BitVec.toNat_ofNat, Nat.mod_eq_of_lt h1]
    · rw [ho, BitVec.toNat_ofNat, Nat.mod_eq_of_lt h2]
    · rw [hl, BitVec.toNat_ofNat, Nat.mod_eq_of_lt h3]
  · rename_i hfit
    refine Option.eq_none_iff_forall_ne_some.mpr fun i hi => hfit ?_
    obtain ⟨vh, vo, vl, _, _, _, htokens, e1, e2, e3, -⟩ := rangeOperand_eq_some.mp hi
    cases htokens
    cases hh.symm.trans e1
    cases ho.symm.trans e2
    cases hl.symm.trans e3
    exact ⟨vh.isLt, vo.isLt, vl.isLt⟩

/-- R82: a line of a mnemonic whose operands are a range, and the three numbers. -/
theorem assembleLine_range {row : OpcodeRow} {mk : Byte → Word → Word → Instr} {hs os ls : List Char} {h o l : Nat}
    (hrow : row ∈ opcodeMap) (hmk : operandsOf row.opcode = rangeOperand mk) (hm : IsWord row.mnemonic.toList)
    (hh : IsWord hs ∧ numberValue hs = some h) (ho : IsWord os ∧ numberValue os = some o)
    (hl : IsWord ls ∧ numberValue ls = some l) :
    assembleLine (row.mnemonic.toList ++ (" h=".toList ++ hs ++ ", off=".toList ++ os ++ ", len=".toList ++ ls)) =
      if h < 2 ^ 8 ∧ o < 2 ^ 32 ∧ l < 2 ^ 32 then
        some (some (mk (BitVec.ofNat 8 h) (BitVec.ofNat 32 o) (BitVec.ofNat 32 l)))
      else none := by
  rw [assembleLine_of_lex hrow (lex_range_line hm hh.1 ho.1 hl.1), hmk, rangeOperand_rangeTokens mk hh.2 ho.2 hl.2]
  split <;> rfl

/-- Settles O56. -/
theorem rangeTextAssembles : Obligations.RangeTextAssembles := by
  unfold Obligations.RangeTextAssembles
  intro write h o l hwrite operands fits
  have hh := number_written h hwrite
  have ho := number_written o hwrite
  have hl := number_written l hwrite
  constructor
  · exact assembleLine_range (row := ⟨opShaUpdateSeg, "SHA.UPDATE_SEG", .formatS⟩) (by decide) rfl ⟨nofun, rfl⟩ hh ho hl
  · exact assembleLine_range (row := ⟨opHmacUpdateSeg, "HMAC.UPDATE_SEG", .formatS⟩) (by decide) rfl ⟨nofun, rfl⟩
      hh ho hl

end Sys2Proof.Machine
end

section
/-! The items of a byte expression (spec/30_encoding.md R83). -/

namespace Sys2Proof.Machine

/-! ### Quoted runs -/

/-- In a mode that keeps every character up to the closing quote, a run is what the mode makes of its characters, and
the lexer goes on after it. -/
theorem lex_run {mode : LexMode} {value : List Char → Option (List Byte)}
    (hopen : ∀ cur c rest, c ≠ '"' → lex mode cur (c :: rest) = lex mode (cur ++ [c]) rest)
    (hclose : ∀ cur rest bs, value cur = some bs →
      lex mode cur ('"' :: rest) = (lex .outside [] rest).map (.bytes bs :: ·))
    {cs : List Char} {bs : List Byte} (cur rest : List Char) (hcs : '"' ∉ cs) (hbs : value (cur ++ cs) = some bs) :
    lex mode cur (cs ++ '"' :: rest) = (lex .outside [] rest).map (.bytes bs :: ·) := by
  induction cs generalizing cur with
  | nil => rw [List.append_nil] at hbs; exact hclose cur rest bs hbs
  | cons c cs ih =>
    obtain ⟨hc, hcs⟩ := not_or.mp (mt List.mem_cons.mpr hcs)
    rw [List.cons_append, hopen _ _ _ (Ne.symm hc)]
    exact ih (cur ++ [c]) hcs (by rwa [List.append_assoc])

/-- R83 (a): a run in quotes. -/
theorem lex_quoted {cs : List Char} {bs : List Byte} (rest : List Char) (hcs : '"' ∉ cs)
    (hbs : asciiBytes cs = some bs) :
    lex .outside [] ('"' :: cs ++ '"' :: rest) = (lex .outside [] rest).map (.bytes bs :: ·) :=
  lex_run (mode := .quoted) (fun _ _ _ hc => by rw [lex, if_neg hc])
    (fun _ _ _ h => by simp [lex, h]) [] rest hcs hbs

/-- R83 (b): a run in quotes after `x`. -/
theorem lex_hexQuoted {cs : List Char} {bs : List Byte} (rest : List Char) (hcs : '"' ∉ cs)
    (hbs : hexBytes cs = some bs) :
    lex .outside [] ('x' :: '"' :: cs ++ '"' :: rest) = (lex .outside [] rest).map (.bytes bs :: ·) :=
  lex_run (mode := .hexQuoted) (fun _ _ _ hc => by rw [lex, if_neg hc])
    (fun _ _ _ h => by simp [lex, h]) [] rest hcs hbs

/-- The character of a byte has the byte as its code. -/
theorem toNat_ofNat_byte (b : Byte) : (Char.ofNat b.toNat).toNat = b.toNat := by
  have hb := b.isLt
  rw [Char.toNat_ofNat, if_pos (.inl (by omega))]

/-- R83 (a): printable characters are their codes. -/
theorem asciiBytes_map_ofNat {p : List Byte} (hp : ∀ b ∈ p, 0x20 ≤ b.toNat ∧ b.toNat ≤ 0x7e) :
    asciiBytes (p.map fun b => Char.ofNat b.toNat) = some p := by
  induction p with
  | nil => rfl
  | cons b p ih =>
    obtain ⟨hb, hp⟩ := List.forall_mem_cons.mp hp
    rw [List.map_cons, asciiBytes, toNat_ofNat_byte, if_pos hb, ih hp, BitVec.ofNat_toNat, BitVec.setWidth_eq]
    rfl

/-- A byte as two hex digits. -/
def hexPair (b : Byte) : List Char := [Nat.digitChar (b.toNat / 16), Nat.digitChar (b.toNat % 16)]

/-- R83 (b): two digits are a byte. -/
theorem hexBytes_flatMap_hexPair (p : List Byte) : hexBytes (p.flatMap hexPair) = some p := by
  induction p with
  | nil => rfl
  | cons b p ih =>
    have hb := b.isLt
    have hbyte : 16 * (b.toNat / 16) + b.toNat % 16 = b.toNat := Nat.div_add_mod _ _
    show hexBytes (_ :: _ :: p.flatMap hexPair) = _
    rw [hexBytes, digitValue_digitChar (by omega), digitValue_digitChar (by omega)]
    simp only [ih, hbyte, BitVec.ofNat_toNat, BitVec.setWidth_eq, Option.map_some]

/-! ### Repetitions and sums -/

/-- R83 (c): a repetition is taken exactly when its two numbers fit. -/
theorem repeated_eq_some {b n : List Char} {bs : List Byte} :
    repeated b n = some bs ↔ ∃ v k, numberValue b = some v ∧ v < 2 ^ 8 ∧ numberValue n = some k ∧ k < 2 ^ 32 ∧
      bs = List.replicate k (BitVec.ofNat 8 v) := by
  constructor
  · intro h
    unfold repeated at h
    split at h
    · rename_i v k hv hk
      obtain ⟨hv, hv8⟩ := fieldValue_eq_some.mp hv
      obtain ⟨hk, hk32⟩ := fieldValue_eq_some.mp hk
      exact ⟨v, k, hv, hv8, hk, hk32, (Option.some.inj h).symm⟩
    · cases h
  · rintro ⟨v, k, hv, hv8, hk, hk32, rfl⟩
    simp only [repeated, fieldValue_eq_some.mpr ⟨hv, hv8⟩, fieldValue_eq_some.mpr ⟨hk, hk32⟩]

/-- R83: a quoted item in front of `+`. -/
theorem byteItems_bytes_plus (bs : List Byte) (ts : List Token) :
    byteItems (.bytes bs :: .plus :: ts) = (byteItems ts).map (bs ++ ·) := by
  rw [byteItems]

/-- R83: a repetition in front of `+`. -/
theorem byteItems_repeated_plus (b n : List Char) (ts : List Token) :
    byteItems (.word b :: .star :: .word n :: .plus :: ts) =
      (repeated b n).bind fun bs => (byteItems ts).map (bs ++ ·) := by
  rw [byteItems]
  cases repeated b n <;> rfl

/-- R83: two expressions joined by `+` are worth their bytes one after the other. -/
theorem byteItems_join {ts us : List Token} {bs cs : List Byte} (hts : byteItems ts = some bs)
    (hus : byteItems us = some cs) : byteItems (ts ++ .plus :: us) = some (bs ++ cs) := by
  induction ts using byteItems.induct generalizing bs with
  | case1 bs' =>
    cases hts
    rw [List.singleton_append, byteItems_bytes_plus, hus, Option.map_some]
  | case2 bs' ts ih =>
    rw [byteItems_bytes_plus] at hts
    obtain ⟨rest, hrest, rfl⟩ := Option.map_eq_some_iff.mp hts
    rw [List.cons_append, List.cons_append, byteItems_bytes_plus, ih hrest, Option.map_some, List.append_assoc]
  | case3 b n =>
    have hrep : repeated b n = some bs := hts
    rw [List.cons_append, List.cons_append, List.singleton_append, byteItems_repeated_plus, hrep, Option.bind_some, hus,
      Option.map_some]
  | case4 b n ts bs' hrep ih =>
    rw [byteItems_repeated_plus, hrep] at hts
    obtain ⟨rest, hrest, rfl⟩ := Option.map_eq_some_iff.mp hts
    simp only [List.cons_append]
    rw [byteItems_repeated_plus, hrep, Option.bind_some, ih hrest, Option.map_some, List.append_assoc]
  | case5 b n ts hrep =>
    rw [byteItems_repeated_plus, hrep] at hts
    cases hts
  | case6 ts h1 h2 h3 h4 =>
    rw [byteItems.eq_5 ts h1 h2 h3 h4] at hts
    cases hts

/-- Settles O57. -/
theorem byteItemsAreAsWritten : Obligations.ByteItemsAreAsWritten := by
  unfold Obligations.ByteItemsAreAsWritten
  refine ⟨fun p rest hp => ?_, fun p rest => ?_, fun b n bs => repeated_eq_some, fun bs => rfl,
    fun ts us bs cs => byteItems_join⟩
  · refine lex_quoted rest ?_ (asciiBytes_map_ofNat fun b hb => ⟨(hp b hb).1, (hp b hb).2.1⟩)
    intro hmem
    obtain ⟨b, hb, hquote⟩ := List.mem_map.mp hmem
    exact (hp b hb).2.2 ((toNat_ofNat_byte b).symm.trans (congrArg Char.toNat hquote))
  · exact lex_hexQuoted rest (by simp) (hexBytes_flatMap_hexPair p)

end Sys2Proof.Machine
end

section
/-! The compression function (spec/40_compress.md R90 to R97): the functions bit by bit, the block's words, the schedule,
the rounds, and the two tables. -/

namespace Sys2Proof.Machine

/-! ### The logical functions, bit by bit -/

@[simp] theorem getLsbD_shr (x : Word) (n b : Nat) :
    (shr x n).getLsbD b = (decide (b + n < 32) && x.getLsbD (b + n)) := by
  rw [shr, BitVec.getLsbD_ushiftRight, Nat.add_comm n b]
  by_cases h : b + n < 32
  · simp [h]
  · simp [h, BitVec.getLsbD_of_ge x (b + n) (by omega)]

/-- A rotation takes bit `b + n`, counted around the word: from the right shift while that is below 32, and from the left
shift past it. -/
theorem getLsbD_rotr (x : Word) {n b : Nat} (h0 : 0 < n) (hn : n < 32) (hb : b < 32) :
    (rotr x n).getLsbD b = x.getLsbD ((b + n) % 32) := by
  rw [rotr, BitVec.getLsbD_or, getLsbD_shr, BitVec.getLsbD_shiftLeft]
  by_cases h : b + n < 32
  · simp [h, Nat.mod_eq_of_lt h, show b < 32 - n by omega]
  · have hmod : (b + n) % 32 = b - (32 - n) := by omega
    simp [h, hmod, hb, show 32 - n ≤ b by omega]

theorem getLsbD_ch (x y z : Word) {b : Nat} (hb : b < 32) :
    (ch x y z).getLsbD b = if x.getLsbD b then y.getLsbD b else z.getLsbD b := by
  simp only [ch, BitVec.getLsbD_xor, BitVec.getLsbD_and, BitVec.getLsbD_not]
  cases x.getLsbD b <;> simp [hb]

/-- The XOR of the three conjunctions of two bits is their majority. -/
theorem xor_and_eq_majority : ∀ a b c : Bool,
    ((a && b) ^^ (a && c) ^^ (b && c)) = decide (2 ≤ a.toNat + b.toNat + c.toNat) := by
  decide

theorem getLsbD_maj (x y z : Word) (b : Nat) : (maj x y z).getLsbD b =
    decide (2 ≤ (x.getLsbD b).toNat + (y.getLsbD b).toNat + (z.getLsbD b).toNat) := by
  simp only [maj, BitVec.getLsbD_xor, BitVec.getLsbD_and, xor_and_eq_majority]

/-- Settles O23: each function is a combination, bit by bit, of rotations and shifts. -/
theorem logicalFunctionsBitwise : Obligations.LogicalFunctionsBitwise := by
  unfold Obligations.LogicalFunctionsBitwise
  intro x y z b hb
  have hrot (n : Nat) (h0 : 0 < n) (hn : n < 32) := getLsbD_rotr x h0 hn hb
  refine ⟨getLsbD_ch x y z hb, getLsbD_maj x y z b, ?_, ?_, ?_, ?_⟩
  · simp [bsig0, hrot]
  · simp [bsig1, hrot]
  · simp [ssig0, hrot]
  · simp [ssig1, hrot]

/-! ### The message schedule -/

theorem length_blockWords : ∀ B : List Byte, (blockWords B).length = B.length / 4
  | [] | [_] | [_, _] | [_, _, _] => by simp [blockWords]
  | _ :: _ :: _ :: _ :: rest => by simp only [blockWords, List.length_cons, length_blockWords rest]; omega

/-- R94: word `t` of a block is its bytes `4t` to `4t + 3`. -/
theorem getD_blockWords {B : List Byte} {t : Nat} (ht : 4 * t + 3 < B.length) : (blockWords B).getD t 0 =
    unbe32 (B.getD (4 * t) 0) (B.getD (4 * t + 1) 0) (B.getD (4 * t + 2) 0) (B.getD (4 * t + 3) 0) := by
  induction t generalizing B with
  | zero =>
    match B, ht with
    | b0 :: b1 :: b2 :: b3 :: rest, _ => rfl
  | succ t ih =>
    match B, ht with
    | b0 :: b1 :: b2 :: b3 :: rest, ht =>
      simp only [List.length_cons] at ht
      exact ih (by omega)

/-- The schedule after `n` steps of R95, from the words of a block. -/
def scheduleUpTo (B : List Byte) (n : Nat) : List Word :=
  (List.range' 16 n).foldl (fun W t => W ++ [scheduleWord W t]) (blockWords B)

theorem schedule_eq (B : List Byte) : schedule B = scheduleUpTo B 48 := rfl

theorem scheduleUpTo_succ (B : List Byte) (n : Nat) :
    scheduleUpTo B (n + 1) = scheduleUpTo B n ++ [scheduleWord (scheduleUpTo B n) (16 + n)] := by
  rw [scheduleUpTo, List.range'_1_concat, List.foldl_append]
  rfl

theorem length_scheduleUpTo {B : List Byte} (hB : B.length = 64) (n : Nat) : (scheduleUpTo B n).length = 16 + n := by
  induction n with
  | zero => exact (length_blockWords B).trans (by rw [hB])
  | succ n ih => rw [scheduleUpTo_succ, List.length_append, ih, List.length_singleton]; rfl

theorem length_schedule {B : List Byte} (hB : B.length = 64) : (schedule B).length = 64 := by
  rw [schedule_eq, length_scheduleUpTo hB]

/-- A schedule word depends on earlier words only. -/
theorem scheduleWord_append {W : List Word} (W' : List Word) {t : Nat} (h16 : 16 ≤ t) (ht : t ≤ W.length) :
    scheduleWord (W ++ W') t = scheduleWord W t := by
  have hword (k : Nat) (hk : k < t) : (W ++ W').getD k 0 = W.getD k 0 :=
    List.getD_append _ _ _ _ (by omega)
  simp only [scheduleWord, hword (t - 2) (by omega), hword (t - 7) (by omega), hword (t - 15) (by omega),
    hword (t - 16) (by omega)]

/-- R94: the first sixteen words stay those of the block. -/
theorem getD_scheduleUpTo_of_lt {B : List Byte} (hB : B.length = 64) (n : Nat) {t : Nat} (ht : t < 16) :
    (scheduleUpTo B n).getD t 0 = (blockWords B).getD t 0 := by
  induction n with
  | zero => rfl
  | succ n ih => rw [scheduleUpTo_succ, List.getD_append _ _ _ _ (by rw [length_scheduleUpTo hB]; omega), ih]

/-- R95: every further word is given by the recurrence over the schedule it stands in. -/
theorem getD_scheduleUpTo {B : List Byte} (hB : B.length = 64) {n t : Nat} (h16 : 16 ≤ t) (ht : t < 16 + n) :
    (scheduleUpTo B n).getD t 0 = scheduleWord (scheduleUpTo B n) t := by
  induction n with
  | zero => omega
  | succ n ih =>
    have hlen := length_scheduleUpTo hB n
    rw [scheduleUpTo_succ, scheduleWord_append _ h16 (by omega)]
    by_cases hlast : t < 16 + n
    · rw [List.getD_append _ _ _ _ (by omega), ih hlast]
    · obtain rfl : t = 16 + n := by omega
      rw [List.getD_append_right _ _ _ _ (by omega), hlen, Nat.sub_self, List.getD_cons_zero]

/-! ### The rounds -/

/-- The working words after `t` rounds on a block. -/
def workingWords (H : Words8) (B : List Byte) (t : Nat) : Words8 :=
  ((roundConstants.zip (schedule B)).take t).foldl (fun v kw => round v kw.1 kw.2) H

theorem length_zip_schedule {B : List Byte} (hB : B.length = 64) : (roundConstants.zip (schedule B)).length = 64 := by
  rw [List.length_zip, length_schedule hB]
  rfl

/-- R96: round `t` takes constant and schedule word `t`. -/
theorem workingWords_succ (H : Words8) {B : List Byte} (hB : B.length = 64) {t : Nat} (ht : t < 64) :
    workingWords H B (t + 1) = round (workingWords H B t) (roundConstants.getD t 0) ((schedule B).getD t 0) := by
  have hK : t < roundConstants.length := ht
  have hW : t < (schedule B).length := ht.trans_eq (length_schedule hB).symm
  have hzip := ht.trans_eq (length_zip_schedule hB).symm
  rw [workingWords, ← List.take_append_getElem hzip, List.foldl_append, List.foldl_cons, List.foldl_nil,
    List.getElem_zip, List.getD_eq_getElem _ _ hK, List.getD_eq_getElem _ _ hW, workingWords]

/-- R97: the feed-forward after 64 rounds. -/
theorem compress_eq_add (H : Words8) {B : List Byte} (hB : B.length = 64) :
    compress H B = H.add (workingWords H B 64) := by
  rw [workingWords, List.take_of_length_le (length_zip_schedule hB).le, compress]

/-- Settles O24, by the schedule of the block and the working words after each round. -/
theorem compressIsSixtyFourRounds : Obligations.CompressIsSixtyFourRounds := by
  unfold Obligations.CompressIsSixtyFourRounds
  refine ⟨rfl, fun H B hB => ⟨fun t => (schedule B).getD t 0, workingWords H B, fun t ht => ?_, fun t h16 ht => ?_, rfl,
    fun t ht => workingWords_succ H hB ht, compress_eq_add H hB⟩⟩
  · rw [← unbe32_toNat, BitVec.ofNat_toNat, BitVec.setWidth_eq]
    exact (getD_scheduleUpTo_of_lt hB 48 ht).trans (getD_blockWords (by omega))
  · exact getD_scheduleUpTo hB (n := 48) h16 ht

/-! ### The tables of constants -/

/-- The primes up to 311, by trial division as `Obligations.TablesAreRootsOfPrimes` writes it. -/
def firstPrimes : List Nat :=
  (List.range 312).filter fun n => 2 ≤ n ∧ ∀ d ∈ List.range 18, 2 ≤ d → d < n → n % d ≠ 0

/-- `w` is the first 32 bits of the fractional part of the `k`-th root of `p`, whose integer part is below 8. -/
abbrev IsRootWord (k p : Nat) (w : Word) : Prop :=
  ∃ q < 8, (q * 2 ^ 32 + w.toNat) ^ k ≤ p * 2 ^ (32 * k) ∧ p * 2 ^ (32 * k) < (q * 2 ^ 32 + w.toNat + 1) ^ k

theorem exists_root_of_isRootWord {k p : Nat} {w : Word} (h : IsRootWord k p w) :
    ∃ r, r ^ k ≤ p * 2 ^ (32 * k) ∧ p * 2 ^ (32 * k) < (r + 1) ^ k ∧ w = BitVec.ofNat 32 r := by
  obtain ⟨q, -, hle, hlt⟩ := h
  refine ⟨_, hle, hlt, BitVec.eq_of_toNat_eq ?_⟩
  rw [BitVec.toNat_ofNat, Nat.mul_add_mod_self_right, Nat.mod_eq_of_lt w.isLt]

/-- A table of root words holds, beside each prime, the low word of its root. -/
theorem exists_root_of_getElem? {k t p : Nat} {table : List Word}
    (htable : ∀ pw ∈ firstPrimes.zip table, IsRootWord k pw.1 pw.2) (hp : firstPrimes[t]? = some p)
    (ht : t < table.length) :
    ∃ r, r ^ k ≤ p * 2 ^ (32 * k) ∧ p * 2 ^ (32 * k) < (r + 1) ^ k ∧ table[t]? = some (BitVec.ofNat 32 r) := by
  have hw := List.getElem?_eq_getElem ht
  have hmem : (p, table[t]) ∈ firstPrimes.zip table :=
    List.mem_of_getElem? (List.getElem?_zip_eq_some.mpr ⟨hp, hw⟩)
  obtain ⟨r, hle, hlt, hr⟩ := exists_root_of_isRootWord (htable _ hmem)
  exact ⟨r, hle, hlt, hw.trans (congrArg some hr)⟩

theorem length_firstPrimes : firstPrimes.length = 64 := by decide +kernel

theorem isRootWord_iv :
    ∀ pw ∈ firstPrimes.zip [iv.w0, iv.w1, iv.w2, iv.w3, iv.w4, iv.w5, iv.w6, iv.w7], IsRootWord 2 pw.1 pw.2 := by
  decide +kernel

theorem isRootWord_roundConstants : ∀ pw ∈ firstPrimes.zip roundConstants, IsRootWord 3 pw.1 pw.2 := by
  decide +kernel

/-- Settles O54: each word of the two tables is the low word of the integer part it stands for. -/
theorem tablesAreRootsOfPrimes : Obligations.TablesAreRootsOfPrimes := by
  unfold Obligations.TablesAreRootsOfPrimes
  refine ⟨length_firstPrimes, fun i p hi hp => exists_root_of_getElem? isRootWord_iv hp hi, fun t p hp => ?_⟩
  obtain ⟨ht, -⟩ := List.getElem?_eq_some_iff.mp hp
  exact exists_root_of_getElem? isRootWord_roundConstants hp (length_firstPrimes ▸ ht)

end Sys2Proof.Machine
end

section
/-! The padding sequence and the bytes of a digest (spec/41_hash_engine.md R113, R115). -/

namespace Sys2Proof.Machine

/-! ### Padding -/

/-- R113: the bit length, computed on the counter or on its number. -/
theorem eight_mul_eq_ofNat (total : Count) : 8 * total = BitVec.ofNat 64 (8 * total.toNat) := by
  rw [BitVec.ofNat_mul, BitVec.ofNat_toNat, BitVec.setWidth_eq]; rfl

/-- Settles O28: `k` is `(119 - n) % 64`, which is `55 - n` or `119 - n`. -/
theorem paddingShape : Obligations.PaddingShape := by
  unfold Obligations.PaddingShape
  intro n total hn
  have hlen := length_padding n total
  refine ⟨(119 - n) % 64, ?_, by omega, fun j hj => by omega, fun h55 => by omega, fun h56 => by omega⟩
  rw [padding, eight_mul_eq_ofNat, List.cons_append]

/-! ### The digest -/

theorem digest_eq_flatMap (H : Words8) :
    digest H = [H.w0, H.w1, H.w2, H.w3, H.w4, H.w5, H.w6, H.w7].flatMap be32 := rfl

/-- 00_scope.md section 6: byte `j` of a word, the most significant first. -/
theorem getElem?_be32 (w : Word) {j : Nat} (hj : j < 4) : (be32 w)[j]? = some (w.extractLsb' (24 - 8 * j) 8) :=
  match j, hj with
  | 0, _ => rfl
  | 1, _ => rfl
  | 2, _ => rfl
  | 3, _ => rfl

/-- Words laid out one after another: byte `j` of word `i` stands at `4 * i + j`. -/
theorem getElem?_flatMap_be32 {ws : List Word} {i j : Nat} {w : Word} (hw : ws[i]? = some w) (hj : j < 4) :
    (ws.flatMap be32)[4 * i + j]? = some (w.extractLsb' (24 - 8 * j) 8) := by
  induction ws generalizing i with
  | nil => cases hw
  | cons v ws ih =>
    rw [List.flatMap_cons]
    cases i with
    | zero =>
      obtain rfl : v = w := Option.some.inj hw
      rw [Nat.mul_zero, Nat.zero_add, List.getElem?_append_left (by simpa using hj), getElem?_be32 v hj]
    | succ i =>
      rw [List.getElem?_append_right (by rw [length_be32]; omega), length_be32,
        show 4 * (i + 1) + j - 4 = 4 * i + j by omega]
      exact ih hw

/-- Settles O29: the digest is its words laid out one after another. -/
theorem digestSerialisation : Obligations.DigestSerialisation := by
  unfold Obligations.DigestSerialisation
  refine fun H => ⟨length_digest H, fun i j w hw hj => ?_⟩
  rw [digest_eq_flatMap]
  exact getElem?_flatMap_be32 hw hj

end Sys2Proof.Machine
end

section
/-! What each command of unit SHA leaves, and the laws of two Updates and of an empty one for both units
(spec/41_hash_engine.md R112, R116 to R118, 42_hmac.md R133). -/

namespace Sys2Proof.Machine

/-! ### Active units -/

theorem Engine.eq_idle_of_active_eq_false {e : Engine} (h : e.active = false) : e = .idle := by
  cases e with
  | idle => rfl
  | running r => cases h

/-- An active unit `HMAC` whose INNER is active, taken apart. -/
theorem HmacUnit.exists_eq_of_active {u : HmacUnit} (hu : u.active = true) (hinner : u.inner.active = true) :
    ∃ r outer opad, u = ⟨.running r, outer, .retained opad⟩ := by
  obtain ⟨opad, hpad⟩ := HmacUnit.active_iff.mp hu
  obtain ⟨r, hr⟩ := Engine.active_iff.mp hinner
  exact ⟨r, u.outer, opad, by rw [← hpad, ← hr]⟩

/-! ### The commands of unit SHA -/

/-- R117: an inactive engine `SHA` takes no Update. -/
theorem exec_shaUpdate_of_idle {s : State} (p : List Byte) (hs : s.sha = .idle) :
    exec (.shaUpdate p) s = trap .notStarted (.shaUpdate p) s := by
  simp only [exec, execShaUpdate, hs, Engine.update]

/-- R118: an inactive engine `SHA` takes no Finish. -/
theorem exec_shaFinish_of_idle {s : State} (hs : s.sha = .idle) :
    exec .shaFinish s = trap .notStarted .shaFinish s := by
  simp only [exec, execShaFinish, hs, Engine.finish]

/-- R118: an active engine `SHA` emits its digest. -/
theorem exec_shaFinish_of_running {s : State} {r : EngineRegs} (hs : s.sha = .running r) :
    exec .shaFinish s = complete .shaFinish ((s.setSha .idle).doutWrite r.finish) := by
  simp only [exec, execShaFinish, hs, Engine.finish]

theorem length_blocks (bs : List Byte) : (blocks bs).length = bs.length / 64 := by
  rw [blocks, List.length_map, List.length_range]

/-- Settles O25. -/
theorem shaStartResult : Obligations.ShaStartResult := ⟨rfl, rfl, fun _ => rfl⟩

/-- Settles O26: the engine's loop in closed form. -/
theorem shaUpdateResult : Obligations.ShaUpdateResult := by
  unfold Obligations.ShaUpdateResult
  refine fun s p => ⟨rfl, fun hidle => ?_, fun H buf total hs hbuf => ⟨?_, ?_, ?_⟩⟩
  · exact exec_shaUpdate_of_idle p (Engine.eq_idle_of_active_eq_false hidle)
  · rw [exec_shaUpdate_of_running p hs, absorb_eq H total p hbuf]; rfl
  · rw [length_blocks, List.length_append]
  · rw [length_leftover, List.length_append]

/-- R113: the padded tail is one block up to 55 buffered bytes, and two from 56 on. -/
theorem length_blocks_padded {buf : List Byte} (total : Count) (h : buf.length < 64) :
    (blocks (buf ++ padding buf.length total)).length = if buf.length ≤ 55 then 1 else 2 := by
  rw [length_blocks, List.length_append, length_padding]
  split <;> omega

/-- Settles O27: Finish compresses the blocks of the padded tail. -/
theorem shaFinishResult : Obligations.ShaFinishResult := by
  unfold Obligations.ShaFinishResult
  refine ⟨rfl, fun s => ⟨fun hidle => ?_, fun H buf total hs hbuf => ⟨?_, length_blocks_padded total hbuf⟩⟩⟩
  · exact exec_shaFinish_of_idle (Engine.eq_idle_of_active_eq_false hidle)
  · rw [exec_shaFinish_of_running hs, finish_eq hbuf]; rfl

/-! ### Two Updates, and an empty one -/

/-- Settles O30: an engine absorbs two spans as it absorbs the span of both. -/
theorem updatesJoin : Obligations.UpdatesJoin := by
  unfold Obligations.UpdatesJoin
  refine fun s p q => ⟨fun hactive => ?_, fun hactive hinner => ?_⟩
  · obtain ⟨r, hs⟩ := Engine.active_iff.mp hactive
    refine ⟨_, _, exec_shaUpdate_of_running p hs, exec_shaUpdate_of_running q rfl, ?_⟩
    rw [exec_shaUpdate_of_running _ hs, absorb_append, ← List.length_append]; rfl
  · obtain ⟨r, outer, opad, hs⟩ := HmacUnit.exists_eq_of_active hactive hinner
    refine ⟨_, _, exec_hmacUpdate_of_running p hs, exec_hmacUpdate_of_running q rfl, ?_⟩
    rw [exec_hmacUpdate_of_running _ hs, absorb_append, ← List.length_append]; rfl

/-- Settles O31. -/
theorem emptyUpdateChangesNothing : Obligations.EmptyUpdateChangesNothing := by
  unfold Obligations.EmptyUpdateChangesNothing
  refine ⟨fun s hactive => ?_, fun s hactive hinner => ?_⟩
  · obtain ⟨r, hs⟩ := Engine.active_iff.mp hactive
    rw [exec_shaUpdate_of_running [] hs, absorb_nil, ← hs]; rfl
  · obtain ⟨r, outer, opad, hs⟩ := HmacUnit.exists_eq_of_active hactive hinner
    rw [exec_hmacUpdate_of_running [] hs, absorb_nil, ← hs]; rfl

end Sys2Proof.Machine
end

section
/-! The digest of a message, however it was sent (spec/41_hash_engine.md R119, 70_reset_and_hazards.md R194), and the
document's worked examples (95_test_vectors.md). -/

namespace Sys2Proof.Machine

/-! ### Updates that do not fault -/

/-- Two lists of commands one after another. -/
theorem effectAll_append {U : Type} {effect : Instr → U → Option (U × List (List Byte))} {is js : List Instr}
    {u u1 u2 : U} {r1 r2 : List (List Byte)} (h1 : effectAll effect is u = some (u1, r1))
    (h2 : effectAll effect js u1 = some (u2, r2)) : effectAll effect (is ++ js) u = some (u2, r1 ++ r2) := by
  induction is generalizing u r1 with
  | nil => cases h1; exact h2
  | cons i is ih =>
    obtain ⟨v, ra, rb, hi, his, rfl⟩ := effectAll_cons_eq_some h1
    rw [List.append_assoc]
    exact effectAll_cons hi (ih his)

/-- R151: a segmented Update that does not fault has its range within the content. -/
theorem range_le_of_segEffect {U : Type} {active : Bool} {update : U → List Byte → Option U} {m : SegSpace} {h : Byte}
    {offset len : Word} {u u' : U} (hu : segEffect active update m h offset len u = some u') :
    offset.toNat + len.toNat ≤ segLen m h := by
  by_contra hr
  rw [segEffect, if_neg fun hf => hr hf.2] at hu
  cases hu

/-- The Update of a piece faults unless the piece fits. -/
theorem fits_of_shaEffect_toSha {m : SegSpace} {p : Piece} {e : Engine} {er : Engine × List (List Byte)}
    (h : shaEffect m p.toSha e = some er) : p.fits m = true := by
  cases p with
  | flat p => rfl
  | range hd o l =>
    obtain ⟨e1, he, -⟩ := Option.map_eq_some_iff.mp h
    exact decide_eq_true (range_le_of_segEffect he)

/-- Updates none of which faults send pieces that fit, where that holds of each. -/
theorem fits_of_effectAll {U : Type} {effect : Instr → U → Option (U × List (List Byte))} {send : Piece → Instr}
    {m : SegSpace} (hfits : ∀ p u v, effect (send p) u = some v → p.fits m = true) {ps : List Piece} {u u' : U}
    {rs : List (List Byte)} (h : effectAll effect (ps.map send) u = some (u', rs)) : ∀ p ∈ ps, p.fits m = true := by
  induction ps generalizing u rs with
  | nil => nofun
  | cons p ps ih =>
    obtain ⟨u1, r1, r2, hp, hps, -⟩ := effectAll_cons_eq_some h
    exact List.forall_mem_cons.mpr ⟨hfits p u _ hp, ih hps⟩

/-! ### The digest of a message -/

theorem isSha_of_mem_shaMessage (ps : List Piece) :
    ∀ i ∈ .shaStart :: ps.map Piece.toSha ++ [.shaFinish], i.isSha = true :=
  List.forall_mem_append.mpr
    ⟨List.forall_mem_cons.mpr ⟨rfl, List.forall_mem_map.mpr fun p _ => isSha_toSha p⟩,
      List.forall_mem_singleton.mpr rfl⟩

/-- Start and Updates that fit make the engine `SHA` absorb the message. -/
theorem effectAll_shaMessage {m : SegSpace} {ps : List Piece} (e : Engine) (hfit : ∀ p ∈ ps, p.fits m = true) :
    effectAll (shaEffect m) (.shaStart :: ps.map Piece.toSha) e =
      some (.running (EngineRegs.start.absorb (messageOf m ps)), []) :=
  effectAll_cons (r1 := []) rfl
    (effectAll_pieces (fun _ r hp => shaEffect_toSha r hp) ps EngineRegs.start hfit)

/-- R118, R119: Finish, on an engine that has absorbed a message. -/
theorem shaEffect_shaFinish_of_absorbed (seg : SegSpace) (m : List Byte) :
    shaEffect seg .shaFinish (.running (EngineRegs.start.absorb m)) = some (.idle, [sha256Of m]) := by
  rw [← hashPass_eq]; rfl

/-- After a run of Start, Updates and any commands of unit HMAC, none of which faulted, the engine `SHA` has absorbed
the message. -/
theorem sha_of_performAll {s t : State} {cs : List Instr} {ps : List Piece}
    (hcs : cs.filter (fun i => i.isSha) = ps.map Piece.toSha) (hrun : performAll (.shaStart :: cs) s = .next t)
    (htf : t.faultBit = false) : t.sha = .running (EngineRegs.start.absorb (messageOf s.seg ps)) := by
  obtain ⟨rs, -, -, hsha, -⟩ := effectAll_of_performAll hrun htf
  rw [← effectAll_filter (own := fun i => i.isSha) fun i e hi => shaEffect_of_not_isSha s.seg e hi,
    List.filter_cons_of_pos rfl, hcs] at hsha
  obtain ⟨e1, r1, r2, -, hps, -⟩ := effectAll_cons_eq_some hsha
  have hmsg := effectAll_shaMessage s.sha (fits_of_effectAll (fun _ _ _ h => fits_of_shaEffect_toSha h) hps)
  exact congrArg Prod.fst (Option.some.inj (hsha.symm.trans hmsg))

/-- Settles O32: Start and the Updates make the engine absorb the message, with or without commands of unit HMAC between
them, and Finish emits its digest. -/
theorem shaDigestOfMessage : Obligations.ShaDigestOfMessage := by
  unfold Obligations.ShaDigestOfMessage
  refine fun s ps hf hc _ => ⟨fun hfit => ?_, fun cs t hcs hrun htf => ?_⟩
  · have hall := effectAll_append (effectAll_shaMessage s.sha hfit)
      (effectAll_cons (is := []) (shaEffect_shaFinish_of_absorbed s.seg (messageOf s.seg ps)) rfl)
    obtain ⟨t, hrun, htf, hsha, hhmac, hd⟩ := performAll_sha hc hf (isSha_of_mem_shaMessage ps) hall
    exact ⟨t, hrun, hd, htf, hsha, hhmac⟩
  · refine ⟨_, exec_shaFinish_of_running (sha_of_performAll hcs hrun htf), ?_, htf⟩
    rw [← hashPass_eq]; rfl

/-! ### The worked examples -/

/-- Settles O55, by evaluation of the reference functions. -/
theorem workedExamples : Obligations.WorkedExamples := by
  unfold Obligations.WorkedExamples
  decide +kernel

end Sys2Proof.Machine
end

section
/-! The normalised key, and what each command of unit HMAC leaves (spec/42_hmac.md R130 to R137). -/

namespace Sys2Proof.Machine

/-! ### The key and the two pads -/

theorem getElem?_xorPad {kn : List Byte} {i : Nat} {k : Byte} (b : Byte) (h : kn[i]? = some k) :
    (xorPad kn b)[i]? = some (k ^^^ b) := by
  rw [xorPad, List.getElem?_map, h, Option.map_some]

/-- Settles O33. -/
theorem keyNormalisation : Obligations.KeyNormalisation := by
  unfold Obligations.KeyNormalisation
  refine fun key => ⟨length_normKey key, fun hle => ?_, fun hlt => ?_, fun i b h =>
    ⟨getElem?_xorPad _ h, getElem?_xorPad _ h⟩⟩
  · rw [normKey_eq, keyBlock, if_neg (Nat.not_lt.mpr hle)]
  · rw [normKey_eq, keyBlock, if_pos hlt]

/-! ### Engines that absorb a pad -/

/-- An engine fed one whole block right after its Start: one compression, and an empty buffer. -/
theorem start_absorb_block {x : List Byte} (h : x.length = 64) :
    EngineRegs.start.absorb x = ⟨compress iv x, [], 64⟩ := by
  have hrest : leftover x = [] := List.drop_eq_nil_of_le (by rw [h])
  rw [start_absorb, compressBlocks_of_length_eq iv h, hrest, h]; rfl

/-- R134: OUTER's digest takes two compressions, of the pad and of the inner digest with its padding. -/
theorem finish_start_absorb_block_absorb {opad d : List Byte} (hopad : opad.length = 64) (hd : d.length = 32) :
    ((EngineRegs.start.absorb opad).absorb d).finish =
      digest (compress (compress iv opad) (d ++ padding 32 96)) := by
  have hlt : d.length < 64 := by omega
  have hheld : (EngineRegs.start.absorb opad).absorb d = ⟨compress iv opad, d, 96⟩ := by
    rw [start_absorb_block hopad, absorb_eq _ _ _ (by decide), List.nil_append, compressBlocks_of_lt _ hlt,
      leftover_of_lt hlt, hd]; rfl
  have hblock : (d ++ padding 32 96).length = 64 := by rw [List.length_append, hd, length_padding]
  rw [hheld, finish_eq hlt, EngineRegs.n, hd, compressBlocks_of_length_eq _ hblock]

/-! ### The commands of unit HMAC -/

theorem HmacUnit.pad_eq_idle_of_active_eq_false {u : HmacUnit} (h : u.active = false) : u.pad = .idle := by
  cases hpad : u.pad with
  | idle => rfl
  | retained opad => rw [HmacUnit.active_iff.mpr ⟨opad, hpad⟩] at h; cases h

/-- R136: an inactive unit `HMAC` takes no Update. -/
theorem exec_hmacUpdate_of_pad_idle {s : State} (p : List Byte) (hs : s.hmac.pad = .idle) :
    exec (.hmacUpdate p) s = trap .notStarted (.hmacUpdate p) s := by
  simp only [exec, execHmacUpdate, HmacUnit.update, hs]

/-- R137: an inactive unit `HMAC` takes no Finish. -/
theorem exec_hmacFinish_of_pad_idle {s : State} (hs : s.hmac.pad = .idle) :
    exec .hmacFinish s = trap .notStarted .hmacFinish s := by
  simp only [exec, execHmacFinish, HmacUnit.finish, hs]

/-- R134, R137: an active unit `HMAC` emits the digest of its outer pad and its inner digest. -/
theorem exec_hmacFinish_of_running {s : State} {r : EngineRegs} {outer : Engine} {opad : List Byte}
    (hs : s.hmac = ⟨.running r, outer, .retained opad⟩) :
    exec .hmacFinish s = complete .hmacFinish ((s.setHmac ⟨.idle, .idle, .idle⟩).doutWrite
      ((EngineRegs.start.absorb opad).absorb r.finish).finish) := by
  simp only [exec, execHmacFinish, hs, HmacUnit.finish, Engine.finish]

/-- Settles O34: the inner pad is one whole block. -/
theorem hmacStartResult : Obligations.HmacStartResult := by
  unfold Obligations.HmacStartResult
  refine fun s key => ⟨rfl, ?_⟩
  rw [exec, execHmacStart, HmacUnit.start_eq, start_absorb_block (length_ipadOf key)]; rfl

/-- Settles O35: INNER's loop in closed form. -/
theorem hmacUpdateResult : Obligations.HmacUpdateResult := by
  unfold Obligations.HmacUpdateResult
  refine fun s p => ⟨rfl, fun hidle => ?_, fun H buf opad total outer hs hbuf => ?_⟩
  · exact exec_hmacUpdate_of_pad_idle p (HmacUnit.pad_eq_idle_of_active_eq_false hidle)
  · rw [exec_hmacUpdate_of_running p hs, absorb_eq H total p hbuf]; rfl

/-- Settles O36: INNER compresses the blocks of its padded tail, and OUTER two more. -/
theorem hmacFinishResult : Obligations.HmacFinishResult := by
  unfold Obligations.HmacFinishResult
  refine ⟨rfl, fun s => ⟨fun hidle => ?_, fun H buf opad total outer hs hbuf hopad => ?_⟩⟩
  · exact exec_hmacFinish_of_pad_idle (HmacUnit.pad_eq_idle_of_active_eq_false hidle)
  · rw [exec_hmacFinish_of_running hs, finish_start_absorb_block_absorb hopad (length_finish _), finish_eq hbuf]; rfl

end Sys2Proof.Machine
end

section
/-! The tag of a message, however it was sent (spec/42_hmac.md R138). -/

namespace Sys2Proof.Machine

/-- The unit `HMAC` in the middle of a tag: INNER has absorbed the inner pad of the key and the message so far, and the
outer pad of the key is retained. -/
def HmacUnit.holding (outer : Engine) (key m : List Byte) : HmacUnit :=
  ⟨.running (EngineRegs.start.absorb (ipadOf key ++ m)), outer, .retained (opadOf key)⟩

/-- R138: what Finish computes from the two pads and the message is HMAC. -/
theorem finish_absorb_pads (key m : List Byte) :
    ((EngineRegs.start.absorb (opadOf key)).absorb (EngineRegs.start.absorb (ipadOf key ++ m)).finish).finish =
      hmacOf key m :=
  calc
    _ = ((EngineRegs.start.absorb (opadOf key)).absorb (hashPass (ipadOf key ++ m))).finish := rfl
    _ = hashPass (opadOf key ++ hashPass (ipadOf key ++ m)) := by rw [absorb_append]; rfl
    _ = hmacOf key m := by rw [hashPass_eq, hashPass_eq, hmacOf]

/-- R137, R138: Finish on a unit that holds a message emits its tag. -/
theorem hmacEffect_hmacFinish_of_holding (seg : SegSpace) (outer : Engine) (key m : List Byte) :
    hmacEffect seg .hmacFinish (.holding outer key m) = some (⟨.idle, .idle, .idle⟩, [hmacOf key m]) := by
  rw [← finish_absorb_pads]; rfl

/-- The Update of a piece faults unless the piece fits. -/
theorem fits_of_hmacEffect_toHmac {m : SegSpace} {p : Piece} {u : HmacUnit} {ur : HmacUnit × List (List Byte)}
    (h : hmacEffect m p.toHmac u = some ur) : p.fits m = true := by
  cases p with
  | flat p => rfl
  | range hd o l =>
    obtain ⟨u1, hu, -⟩ := Option.map_eq_some_iff.mp h
    exact decide_eq_true (range_le_of_segEffect hu)

theorem isSha_of_mem_hmacMessage (key : List Byte) (ps : List Piece) :
    ∀ i ∈ .hmacStart key :: ps.map Piece.toHmac ++ [.hmacFinish], i.isSha = false :=
  List.forall_mem_append.mpr
    ⟨List.forall_mem_cons.mpr ⟨rfl, List.forall_mem_map.mpr fun p _ => isSha_toHmac p⟩,
      List.forall_mem_singleton.mpr rfl⟩

/-- Start and Updates that fit make the unit `HMAC` hold the message. -/
theorem effectAll_hmacMessage {m : SegSpace} {ps : List Piece} (u : HmacUnit) (key : List Byte)
    (hfit : ∀ p ∈ ps, p.fits m = true) :
    effectAll (hmacEffect m) (.hmacStart key :: ps.map Piece.toHmac) u =
      some (.holding u.outer key (messageOf m ps), []) := by
  have hupdates := effectAll_pieces
    (holding := fun r => (⟨.running r, u.outer, .retained (opadOf key)⟩ : HmacUnit))
    (fun _ r hp => hmacEffect_toHmac r u.outer (opadOf key) hp) ps (EngineRegs.start.absorb (ipadOf key)) hfit
  rw [absorb_append, ← HmacUnit.start_eq] at hupdates
  exact effectAll_cons (r1 := []) rfl hupdates

/-- After a run of Start, Updates and any commands of unit SHA, none of which faulted, the unit `HMAC` holds the
message. -/
theorem hmac_of_performAll {s t : State} {key : List Byte} {cs : List Instr} {ps : List Piece}
    (hcs : cs.filter (fun i => !i.isSha) = ps.map Piece.toHmac)
    (hrun : performAll (.hmacStart key :: cs) s = .next t) (htf : t.faultBit = false) :
    t.hmac = .holding s.hmac.outer key (messageOf s.seg ps) := by
  obtain ⟨-, rh, -, -, hhmac, -⟩ := effectAll_of_performAll hrun htf
  rw [← effectAll_filter (own := fun i => !i.isSha) fun i u hi => hmacEffect_of_isSha s.seg u (by simpa using hi),
    List.filter_cons_of_pos rfl, hcs] at hhmac
  obtain ⟨u1, r1, r2, -, hps, -⟩ := effectAll_cons_eq_some hhmac
  have hmsg := effectAll_hmacMessage s.hmac key (fits_of_effectAll (fun _ _ _ h => fits_of_hmacEffect_toHmac h) hps)
  exact congrArg Prod.fst (Option.some.inj (hhmac.symm.trans hmsg))

/-- Settles O37: Start and the Updates make the unit hold the message, with or without commands of unit SHA between
them, and Finish emits its tag. -/
theorem hmacTagOfMessage : Obligations.HmacTagOfMessage := by
  unfold Obligations.HmacTagOfMessage
  refine fun s key ps hf hc _ => ⟨fun hfit => ?_, fun cs t hcs hrun htf => ?_⟩
  · have hall := effectAll_append (effectAll_hmacMessage s.hmac key hfit) (effectAll_cons (is := [])
      (hmacEffect_hmacFinish_of_holding s.seg s.hmac.outer key (messageOf s.seg ps)) rfl)
    obtain ⟨t, hrun, htf, hsha, hhmac, hd⟩ := performAll_hmac hc hf (isSha_of_mem_hmacMessage key ps) hall
    exact ⟨t, hrun, hd, htf, by rw [hhmac]; rfl, hsha⟩
  · refine ⟨_, exec_hmacFinish_of_running (hmac_of_performAll hcs hrun htf), ?_, htf⟩
    rw [finish_absorb_pads]; rfl

end Sys2Proof.Machine
end

section
/-! The segmented Updates of both units (spec/43_segmented_update.md): the requests of a range, what each Update
answers, and that no step changes a buffer. -/

namespace Sys2Proof.Machine

/-! ### The requests of a range -/

/-- The passes of R152's loop: one for a chunk, whole or not, and those of the rest. -/
theorem ceil_div_eq_succ {chunk len : Nat} (hc : 1 ≤ chunk) (hl : 1 ≤ len) :
    (len + chunk - 1) / chunk = (len - chunk + chunk - 1) / chunk + 1 := by
  by_cases hle : len ≤ chunk
  · rw [Nat.div_eq_of_lt_le (k := 1) (by omega) (by omega), Nat.div_eq_of_lt (by omega)]
  · rw [← Nat.add_div_right _ hc, show len - chunk + chunk - 1 + chunk = len + chunk - 1 by omega]

theorem segRequests_of_len_zero (h : Byte) (chunk passes offset : Nat) : segRequests h chunk passes offset 0 = [] := by
  cases passes <;> rfl

/-- One pass of R152's loop. -/
theorem segRequests_succ (h : Byte) (chunk passes offset : Nat) {len : Nat} (hl : len ≠ 0) :
    segRequests h chunk (passes + 1) offset len =
      ⟨h, offset, min chunk len⟩ :: segRequests h chunk passes (offset + min chunk len) (len - min chunk len) :=
  if_neg hl

/-- R152 in closed form: `ceil(len / chunk)` requests, the `i`-th `i` chunks on. -/
theorem segRequests_eq_map (h : Byte) {chunk passes len : Nat} (offset : Nat) (hc : 1 ≤ chunk) (hp : len ≤ passes) :
    segRequests h chunk passes offset len = (List.range ((len + chunk - 1) / chunk)).map fun i =>
      ⟨h, offset + i * chunk, min chunk (len - i * chunk)⟩ := by
  induction passes generalizing offset len with
  | zero =>
    obtain rfl : len = 0 := by omega
    rw [Nat.div_eq_of_lt (by omega)]; rfl
  | succ passes ih =>
    by_cases hl : len = 0
    · rw [hl, segRequests_of_len_zero, Nat.div_eq_of_lt (by omega)]; rfl
    rw [segRequests_succ h chunk passes offset hl, ceil_div_eq_succ hc (by omega), List.range_succ_eq_map,
      List.map_cons, List.map_map]
    by_cases hle : len ≤ chunk
    · simp [hle, Nat.div_eq_of_lt (show chunk - 1 < chunk by omega), segRequests_of_len_zero]
    · have hshift : ∀ i, offset + chunk + i * chunk = offset + (i + 1) * chunk ∧
          len - chunk - i * chunk = len - (i + 1) * chunk := fun i => by rw [Nat.succ_mul]; omega
      rw [Nat.min_eq_left (by omega), ih (len := len - chunk) (offset + chunk) (by omega)]
      simp [hshift, Nat.min_eq_left (Nat.le_of_not_le hle)]

/-- What the SEG port sees of a segmented Update that completes (R151, R152). -/
def rangeEvents (h : Byte) (chunk offset len : Nat) : List SegEvent :=
  .query h :: (List.range ((len + chunk - 1) / chunk)).map fun i =>
    .read ⟨h, offset + i * chunk, min chunk (len - i * chunk)⟩

/-- The query and the reads of the model's loop are those events. -/
theorem query_cons_reads_eq {chunk : Nat} (h : Byte) (offset len : Word) (hc : 1 ≤ chunk) :
    .query h :: (rangeRequests h chunk offset len).map .read = rangeEvents h chunk offset.toNat len.toNat := by
  rw [rangeRequests, segRequests_eq_map h _ hc (Nat.le_refl _), List.map_map]; rfl

/-! ### What a segmented Update answers -/

/-- R165: the flag is tested before SEG is touched. -/
theorem segUpdate_of_inactive {U : Type} {active : Bool} (update : U → List Byte → Option U) (u : U)
    (put : State → U → State) (i : Instr) (h : Byte) (offset len : Word) (s : State) (ha : active = false) :
    segUpdate active update u put i h offset len s = trap .notStarted i s := by
  rw [segUpdate, ha]; rfl

/-- R151: a range past the content faults after the query, whatever `LEN` is. -/
theorem segUpdate_of_past {U : Type} {active : Bool} (update : U → List Byte → Option U) (u : U)
    (put : State → U → State) (i : Instr) {h : Byte} {offset len : Word} {s : State} (ha : active = true)
    (hr : segLen s.seg h < offset.toNat + len.toNat) :
    segUpdate active update u put i h offset len s = trap .segRange i (s.logSeg [.query h]) := by
  rcases segUpdate_cases active update u put i h offset len s with ⟨hf, -⟩ | ⟨-, -, e⟩ | ⟨-, hfit, -⟩
  · rw [ha] at hf; cases hf
  · exact e
  · omega

/-- R152, R155: a range within the content leaves the unit as one Update with its bytes does, where that Update does not
fault. -/
theorem segUpdate_of_fits {U : Type} {active : Bool} {update : U → List Byte → Option U} {u u' : U}
    (put : State → U → State) (i : Instr) {h : Byte} {offset len : Word} {s : State} (hjoin : UpdateJoins update)
    (ha : active = true) (hc : 1 ≤ s.chunk) (hfit : offset.toNat + len.toNat ≤ segLen s.seg h)
    (hempty : update u [] = some u) (hu : update u ((Piece.range h offset len).bytes s.seg) = some u') :
    segUpdate active update u put i h offset len s =
      complete i (put (s.logSeg (rangeEvents h s.chunk offset.toNat len.toNat)) u') := by
  have heffect := segEffect_of_fits ha hfit hempty hu
  rw [segEffect, if_pos ⟨ha, hfit⟩] at heffect
  have hfeed : segFeed update s.seg s.chunk (rangeRequests h s.chunk offset len) u = .done u' := by
    rw [rangeRequests, segFeed_segRequests hjoin s.seg h u hc (Nat.le_refl _) hfit, heffect]; rfl
  have hin : rangeFits s.seg h offset len = true := decide_eq_true hfit
  have hlog : (s.logSeg [.query h]).logSeg ((rangeRequests h s.chunk offset len).map .read) =
      s.logSeg (rangeEvents h s.chunk offset.toNat len.toNat) := by
    rw [← query_cons_reads_eq h offset len hc]; simp [State.logSeg]
  simp only [segUpdate, ha, hin, if_true, hfeed, hlog]

/-- Settles O16: both units' commands are the one segmented Update, which tests the range before it reads. -/
theorem segRangeFaults : Obligations.SegRangeFaults := by
  unfold Obligations.SegRangeFaults
  exact ⟨fun _ _ _ _ ha hr => segUpdate_of_past _ _ _ _ ha hr, fun _ _ _ _ ha hr => segUpdate_of_past _ _ _ _ ha hr⟩

/-- R153: an active engine `SHA` absorbs the bytes of a range within the content. -/
theorem exec_shaUpdateSeg_of_running {s : State} {r : EngineRegs} {h : Byte} {o l : Word} (hs : s.sha = .running r)
    (hc : 1 ≤ s.chunk) (hfit : o.toNat + l.toNat ≤ segLen s.seg h) :
    exec (.shaUpdateSeg h o l) s = complete (.shaUpdateSeg h o l)
      ((s.logSeg (rangeEvents h s.chunk o.toNat l.toNat)).setSha
        (.running (r.absorb ((Piece.range h o l).bytes s.seg)))) := by
  simp only [exec, execShaUpdateSeg, hs]
  exact segUpdate_of_fits _ _ Engine.update_joins rfl hc hfit (by simp [Engine.update]) rfl

/-- R154: the INNER of an active unit `HMAC` absorbs the bytes of a range within the content. -/
theorem exec_hmacUpdateSeg_of_running {s : State} {r : EngineRegs} {outer : Engine} {opad : List Byte} {h : Byte}
    {o l : Word} (hs : s.hmac = ⟨.running r, outer, .retained opad⟩) (hc : 1 ≤ s.chunk)
    (hfit : o.toNat + l.toNat ≤ segLen s.seg h) :
    exec (.hmacUpdateSeg h o l) s = complete (.hmacUpdateSeg h o l)
      ((s.logSeg (rangeEvents h s.chunk o.toNat l.toNat)).setHmac
        ⟨.running (r.absorb ((Piece.range h o l).bytes s.seg)), outer, .retained opad⟩) := by
  simp only [exec, execHmacUpdateSeg, hs]
  exact segUpdate_of_fits _ _ HmacUnit.update_joins rfl hc hfit (by simp [HmacUnit.update, Engine.update]) rfl

/-- A range within the content has as many bytes as it says. -/
theorem length_bytes_range {m : SegSpace} {h : Byte} {o l : Word} (hfit : o.toNat + l.toNat ≤ segLen m h) :
    ((Piece.range h o l).bytes m).length = l.toNat := by
  rw [segLen] at hfit
  rw [Piece.bytes, List.length_take, List.length_drop]
  omega

/-- Settles O40: the two faults, and the engine's loop in closed form over the bytes of the range. -/
theorem shaUpdateSegResult : Obligations.ShaUpdateSegResult := by
  unfold Obligations.ShaUpdateSegResult
  refine fun s h o l => ⟨rfl, fun hidle => ?_, segRangeFaults.1 s h o l, fun H buf total hs hbuf hc hfit => ?_⟩
  · exact segUpdate_of_inactive _ _ _ _ h o l s hidle
  · rw [exec_shaUpdateSeg_of_running hs hc hfit, absorb_eq H total _ hbuf, length_bytes_range hfit]; rfl

/-- Settles O41: the two faults, and INNER's loop in closed form over the bytes of the range. -/
theorem hmacUpdateSegResult : Obligations.HmacUpdateSegResult := by
  unfold Obligations.HmacUpdateSegResult
  refine fun s h o l => ⟨rfl, fun hidle => ?_, segRangeFaults.2 s h o l,
    fun H buf opad total outer hs hbuf hc hfit => ?_⟩
  · exact segUpdate_of_inactive _ _ _ _ h o l s hidle
  · rw [exec_hmacUpdateSeg_of_running hs hc hfit, absorb_eq H total _ hbuf, length_bytes_range hfit]; rfl

/-- Settles O44: both Updates absorb the bytes of the range. -/
theorem segmentedEqualsFlat : Obligations.SegmentedEqualsFlat := by
  unfold Obligations.SegmentedEqualsFlat
  refine ⟨fun s h o l hc hactive hfit => ?_, fun s h o l hc hactive hinner hfit => ?_⟩
  · obtain ⟨r, hs⟩ := Engine.active_iff.mp hactive
    exact ⟨_, _, exec_shaUpdateSeg_of_running hs hc hfit, exec_shaUpdate_of_running _ hs, rfl, rfl⟩
  · obtain ⟨r, outer, opad, hs⟩ := HmacUnit.exists_eq_of_active hactive hinner
    exact ⟨_, _, exec_hmacUpdateSeg_of_running hs hc hfit, exec_hmacUpdate_of_running _ hs, rfl, rfl⟩

/-- Settles O45: a completed segmented Update recorded the events of its range. -/
theorem segRequestSequence : Obligations.SegRequestSequence := by
  unfold Obligations.SegRequestSequence
  refine fun s h o l hc hfit => ⟨fun hactive => ?_, fun hactive hinner => ?_⟩
  · obtain ⟨r, hs⟩ := Engine.active_iff.mp hactive
    exact ⟨_, exec_shaUpdateSeg_of_running hs hc hfit, rfl⟩
  · obtain ⟨r, outer, opad, hs⟩ := HmacUnit.exists_eq_of_active hactive hinner
    exact ⟨_, exec_hmacUpdateSeg_of_running hs hc hfit, rfl⟩

/-! ### The SEG space over a step -/

/-- R156: no command writes to the SEG space. -/
theorem seg_of_exec {i : Instr} {s t : State} (hx : exec i s = .next t) : t.seg = s.seg := by
  cases performed_of_exec hx with
  | completes => rfl
  | faults => rfl

/-- R156: no step writes to the SEG space. -/
theorem seg_of_step {s t : State} (hstep : step s = .next t) : t.seg = s.seg := by
  rcases step_cases hstep with ⟨-, rfl⟩ | ⟨-, -, ⟨i, rest, -, hx⟩ | ⟨op, -, rfl⟩⟩
  · exact s.applyReset_seg
  · exact seg_of_exec hx
  · exact s.raiseFault_seg .illegalCmd op

/-- Settles O47. -/
theorem segSpaceIsReadOnly : Obligations.SegSpaceIsReadOnly := by
  unfold Obligations.SegSpaceIsReadOnly
  intro s t hstep
  rw [seg_of_step hstep]
  exact ⟨rfl, fun _ => ⟨rfl, fun _ => rfl⟩⟩

end Sys2Proof.Machine
end

section
/-! The three faults: which command takes which, what a fault leaves unchanged, and that only reset ends it
(spec/60_exceptions.md R161 to R166). -/

namespace Sys2Proof

/-- R77: the opcode byte of an illegal command is the first byte read. -/
theorem head?_of_decode_illegal {bs : List Byte} {op : Byte} (h : decode bs = .illegal op) : bs.head? = some op := by
  cases bs with
  | nil => cases h
  | cons b bs =>
    by_cases hb : b ∈ opcodeMap.map OpcodeRow.opcode
    · rcases decode_cons_of_mem bs hb with ⟨i, rest, h'⟩ | h' <;> cases h.symm.trans h'
    · cases h.symm.trans (decode_cons_of_not_mem bs hb); rfl

/-- R70: the opcode byte of a complete command is the first byte read. -/
theorem head?_of_decode_command {bs rest : List Byte} {i : Instr} (h : decode bs = .command i rest) :
    bs.head? = some i.opcode := by
  obtain ⟨tl, htl⟩ := exists_encode_eq_cons i
  rw [← (encode_append_of_decode h).2, htl]; rfl

end Sys2Proof

namespace Sys2Proof.Machine

/-! ### The halted block -/

/-- Settles O8: the only step of a halted block is the reset event. -/
theorem onlyResetLeavesHalted : Obligations.OnlyResetLeavesHalted := by
  unfold Obligations.OnlyResetLeavesHalted
  refine fun s hfault => ⟨fun hreset => step_of_halted hreset hfault, fun t hstep => ?_⟩
  rcases step_cases hstep with ⟨hreset, rfl⟩ | ⟨-, hclear, -⟩
  · exact ⟨hreset, rfl, rfl, rfl, rfl, rfl⟩
  · rw [hfault] at hclear; cases hclear

/-! ### A fault has no other effect -/

/-- R164: a command that sets the latch changes nothing else, but for at most one length query in the record. -/
theorem eq_raiseFault_of_exec {i : Instr} {s t : State} (hclear : s.faultBit = false) (hx : exec i s = .next t)
    (hset : t.faultBit = true) :
    ∃ c evs, (evs = [] ∨ ∃ h, evs = [.query h]) ∧ t = (s.logSeg evs).raiseFault c i.opcode := by
  rcases exec_cases i s with ⟨t', e, -, hbit, -⟩ | ⟨c, evs, e, hevs⟩ | e <;> cases hx.symm.trans e
  · rw [hbit, hclear] at hset; cases hset
  · exact ⟨c, evs, hevs, rfl⟩

/-- Settles O13: a reset clears the latch, so the step was a command's fault or an illegal opcode's. -/
theorem faultsArePrecise : Obligations.FaultsArePrecise := by
  unfold Obligations.FaultsArePrecise
  intro s t hclear hstep hset
  rcases step_cases hstep with ⟨-, rfl⟩ | ⟨-, -, ⟨i, rest, hf, hx⟩ | ⟨op, hf, rfl⟩⟩
  · cases hset
  · obtain ⟨c, evs, hevs, rfl⟩ := eq_raiseFault_of_exec hclear hx hset
    exact ⟨c, i.opcode, evs, List.head?_drop ▸ head?_of_decode_command hf, hevs, rfl⟩
  · refine ⟨.illegalCmd, op, [], List.head?_drop ▸ head?_of_decode_illegal hf, .inl rfl, ?_⟩
    rw [List.append_nil]; rfl

/-! ### An inactive unit -/

/-- Settles O15: all six test the flag of their unit first. -/
theorem notStartedFaults : Obligations.NotStartedFaults := by
  unfold Obligations.NotStartedFaults
  refine ⟨fun s p h o l hidle => ⟨?_, ?_, ?_⟩, fun s p h o l hidle => ⟨?_, ?_, ?_⟩⟩
  · exact exec_shaUpdate_of_idle p (Engine.eq_idle_of_active_eq_false hidle)
  · exact segUpdate_of_inactive _ _ _ _ h o l s hidle
  · exact exec_shaFinish_of_idle (Engine.eq_idle_of_active_eq_false hidle)
  · exact exec_hmacUpdate_of_pad_idle p (HmacUnit.pad_eq_idle_of_active_eq_false hidle)
  · exact segUpdate_of_inactive _ _ _ _ h o l s hidle
  · exact exec_hmacFinish_of_pad_idle (HmacUnit.pad_eq_idle_of_active_eq_false hidle)

/-! ### The table of causes -/

/-- R162: a command that only needs its unit active has no cause while it is. -/
theorem startedCause_eq_none {active : Bool} :
    (if active then none else some FaultCause.notStarted) = none ↔ active = true := by
  cases active <;> simp

/-- R162: its only cause is `NOT_STARTED`. -/
theorem startedCause_eq_some {active : Bool} {c : FaultCause} :
    (if active then none else some FaultCause.notStarted) = some c ↔ active = false ∧ c = .notStarted := by
  cases active <;> simp [eq_comm]

/-- R165: a segmented Update has no cause when its unit is active and its range fits. -/
theorem rangeCause_eq_none {active : Bool} {last size : Nat} :
    (if active then (if last ≤ size then none else some .segRange) else some FaultCause.notStarted) = none ↔
      active = true ∧ last ≤ size := by
  cases active <;> simp

/-- R165: the unit's flag is tested before the range. -/
theorem rangeCause_eq_some {active : Bool} {last size : Nat} {c : FaultCause} :
    (if active then (if last ≤ size then none else some .segRange) else some FaultCause.notStarted) = some c ↔
      (active = false ∧ c = .notStarted) ∨ (active = true ∧ size < last ∧ c = .segRange) := by
  cases active <;> simp [eq_comm]

/-- R28: an active unit `HMAC` that meets the invariant, taken apart. -/
theorem HmacUnit.exists_eq_of_inv {u : HmacUnit} (h : u.Inv) (ha : u.active = true) :
    ∃ r outer opad, u = ⟨.running r, outer, .retained opad⟩ := by
  obtain ⟨opad, hpad⟩ := HmacUnit.active_iff.mp ha
  obtain ⟨-, -, hinner⟩ := h
  rw [hpad] at hinner
  exact HmacUnit.exists_eq_of_active ha hinner.2

/-- R80, R162: a command without a cause completes. -/
theorem exec_of_cause_eq_none {i : Instr} {s : State} (hs : s.Inv) (hc : i.cause s = none) :
    ∃ t, exec i s = .next t ∧ t.faultBit = s.faultBit ∧ t.cause = s.cause ∧ t.finfo = s.finfo ∧
      t.pc = s.pc + i.size := by
  cases i with
  | shaStart => exact ⟨_, rfl, rfl, rfl, rfl, rfl⟩
  | shaUpdate p =>
    obtain ⟨r, hr⟩ := Engine.active_iff.mp (startedCause_eq_none.mp hc)
    exact ⟨_, exec_shaUpdate_of_running p hr, rfl, rfl, rfl, rfl⟩
  | shaUpdateSeg h o l =>
    obtain ⟨hactive, hfit⟩ := rangeCause_eq_none.mp hc
    obtain ⟨r, hr⟩ := Engine.active_iff.mp hactive
    exact ⟨_, exec_shaUpdateSeg_of_running hr hs.chunk hfit, rfl, rfl, rfl, rfl⟩
  | shaFinish =>
    obtain ⟨r, hr⟩ := Engine.active_iff.mp (startedCause_eq_none.mp hc)
    exact ⟨_, exec_shaFinish_of_running hr, rfl, rfl, rfl, rfl⟩
  | hmacStart key => exact ⟨_, rfl, rfl, rfl, rfl, rfl⟩
  | hmacUpdate p =>
    obtain ⟨r, outer, opad, hu⟩ := HmacUnit.exists_eq_of_inv hs.hmac (startedCause_eq_none.mp hc)
    exact ⟨_, exec_hmacUpdate_of_running p hu, rfl, rfl, rfl, rfl⟩
  | hmacUpdateSeg h o l =>
    obtain ⟨hactive, hfit⟩ := rangeCause_eq_none.mp hc
    obtain ⟨r, outer, opad, hu⟩ := HmacUnit.exists_eq_of_inv hs.hmac hactive
    exact ⟨_, exec_hmacUpdateSeg_of_running hu hs.chunk hfit, rfl, rfl, rfl, rfl⟩
  | hmacFinish =>
    obtain ⟨r, outer, opad, hu⟩ := HmacUnit.exists_eq_of_inv hs.hmac (startedCause_eq_none.mp hc)
    exact ⟨_, exec_hmacFinish_of_running hu, rfl, rfl, rfl, rfl⟩

/-- R151, R165: a segmented Update with a cause takes that fault, after at most the length query. -/
theorem segUpdate_of_cause_eq_some {U : Type} {active : Bool} (update : U → List Byte → Option U) (u : U)
    (put : State → U → State) (i : Instr) {h : Byte} {offset len : Word} {s : State} {c : FaultCause}
    (hc : (active = false ∧ c = .notStarted) ∨
      (active = true ∧ segLen s.seg h < offset.toNat + len.toNat ∧ c = .segRange)) :
    segUpdate active update u put i h offset len s = trap c i s ∨
      segUpdate active update u put i h offset len s = trap c i (s.logSeg [.query h]) := by
  rcases hc with ⟨ha, rfl⟩ | ⟨ha, hr, rfl⟩
  · exact .inl (segUpdate_of_inactive update u put i h offset len s ha)
  · exact .inr (segUpdate_of_past update u put i ha hr)

/-- R162, R165: a command with a cause takes that fault, after at most a length query. -/
theorem exec_of_cause_eq_some {i : Instr} {s : State} {c : FaultCause} (hc : i.cause s = some c) :
    exec i s = trap c i s ∨ ∃ h, exec i s = trap c i (s.logSeg [.query h]) := by
  cases i with
  | shaStart => cases hc
  | shaUpdate p =>
    obtain ⟨hidle, rfl⟩ := startedCause_eq_some.mp hc
    exact .inl (exec_shaUpdate_of_idle p (Engine.eq_idle_of_active_eq_false hidle))
  | shaUpdateSeg h o l =>
    exact (segUpdate_of_cause_eq_some _ _ _ _ (rangeCause_eq_some.mp hc)).imp_right fun e => ⟨h, e⟩
  | shaFinish =>
    obtain ⟨hidle, rfl⟩ := startedCause_eq_some.mp hc
    exact .inl (exec_shaFinish_of_idle (Engine.eq_idle_of_active_eq_false hidle))
  | hmacStart key => cases hc
  | hmacUpdate p =>
    obtain ⟨hidle, rfl⟩ := startedCause_eq_some.mp hc
    exact .inl (exec_hmacUpdate_of_pad_idle p (HmacUnit.pad_eq_idle_of_active_eq_false hidle))
  | hmacUpdateSeg h o l =>
    exact (segUpdate_of_cause_eq_some _ _ _ _ (rangeCause_eq_some.mp hc)).imp_right fun e => ⟨h, e⟩
  | hmacFinish =>
    obtain ⟨hidle, rfl⟩ := startedCause_eq_some.mp hc
    exact .inl (exec_hmacFinish_of_pad_idle (HmacUnit.pad_eq_idle_of_active_eq_false hidle))

/-- Settles O14: a command without a cause completes, and one with a cause takes that fault. -/
theorem commandsCompleteOrFaultByTable : Obligations.CommandsCompleteOrFaultByTable := by
  unfold Obligations.CommandsCompleteOrFaultByTable
  intro i s hs
  cases hc : i.cause s with
  | none => exact exec_of_cause_eq_none hs hc
  | some c =>
    rcases exec_of_cause_eq_some hc with hx | ⟨h, hx⟩ <;> exact ⟨_, hx, rfl, rfl, rfl, rfl, rfl, rfl, rfl⟩

end Sys2Proof.Machine
end

section
/-! The reset event, and the three ways a run ends (spec/70_reset_and_hazards.md R190, R196). -/

namespace Sys2Proof.Machine

/-! ### The reset event -/

/-- R190: RESET goes before everything, whatever the state. -/
theorem step_assertReset (s : State) : step s.assertReset = .next s.applyReset :=
  if_pos s.assertReset_resetLine

/-- R30, R190: STATUS reads 0 after the reset event. -/
@[simp] theorem State.applyReset_status (s : State) : s.applyReset.status = 0 :=
  show State.reset.status = 0 by decide

/-- Settles O9. -/
theorem resetEvent : Obligations.ResetEvent := by
  unfold Obligations.ResetEvent
  exact fun s => ⟨s.applyReset, step_assertReset s,
    rfl, rfl, rfl, rfl, rfl, rfl, rfl, s.applyReset_status, rfl, rfl, rfl, rfl, rfl, rfl, rfl⟩

/-! ### The three ends -/

/-- R196: how a run may stop in `s`: at the end of the stream (a), before an incomplete command (b), or halted (c). -/
def State.Ended (s : State) : Prop :=
  (step s = .fault .endOfStream ∧ s.faultBit = false ∧ s.pc = s.cmd.length) ∨
    (step s = .fault .incompleteCommand ∧ s.faultBit = false ∧ s.pc < s.cmd.length) ∨
    (step s = .fault .halted ∧ s.faultBit = true)

/-- R166, R196 (c). -/
theorem State.ended_of_halted {s : State} (hreset : s.resetLine = false) (hfault : s.faultBit = true) : s.Ended :=
  .inr (.inr ⟨step_of_halted hreset hfault, hfault⟩)

/-- R196 (a), or (c) when the last command faulted. -/
theorem State.ended_of_exhausted {s : State} (hreset : s.resetLine = false) (hpc : s.pc = s.cmd.length) : s.Ended := by
  cases hfault : s.faultBit with
  | true => exact State.ended_of_halted hreset hfault
  | false => exact .inl ⟨step_of_exhausted hreset hfault hpc, hfault, hpc⟩

/-- R79, R196 (b). -/
theorem State.ended_of_fetch_incomplete {s : State} (hreset : s.resetLine = false) (hfault : s.faultBit = false)
    (hpc : s.pc < s.cmd.length) (hf : s.fetch = .incomplete) : s.Ended :=
  .inr (.inl ⟨step_of_fetch_incomplete hreset hfault hf, hfault, hpc⟩)

/-- With a byte at `pc`, the decoder does not answer that the stream is exhausted. -/
theorem State.fetch_ne_endOfStream {s : State} (hpc : s.pc < s.cmd.length) : s.fetch ≠ .endOfStream := by
  rw [State.fetch, List.drop_eq_getElem_cons hpc]
  generalize s.cmd[s.pc] = op
  by_cases hop : op ∈ opcodeMap.map OpcodeRow.opcode
  · rcases decode_cons_of_mem _ hop with ⟨i, rest, h⟩ | h <;> rw [h] <;> nofun
  · rw [decode_cons_of_not_mem _ hop]; nofun

/-! ### Steps towards an end -/

/-- A block that has not ended has a next state, which is halted or has consumed at least one byte. -/
theorem ended_or_exists_step {s : State} (hs : s.Inv) (hreset : s.resetLine = false) :
    s.Ended ∨ ∃ t, step s = .next t ∧ t.cmd = s.cmd ∧ t.resetLine = false ∧ (t.faultBit = true ∨ s.pc < t.pc) := by
  rcases hs.pc.eq_or_lt with hpc | hpc
  · exact .inl (State.ended_of_exhausted hreset hpc)
  cases hfault : s.faultBit with
  | true => exact .inl (State.ended_of_halted hreset hfault)
  | false =>
    cases hf : s.fetch with
    | endOfStream => exact absurd hf (State.fetch_ne_endOfStream hpc)
    | incomplete => exact .inl (State.ended_of_fetch_incomplete hreset hfault hpc hf)
    | illegal op => exact .inr ⟨_, step_of_fetch_illegal hreset hfault hf, rfl, hreset, .inl rfl⟩
    | command i rest =>
      obtain ⟨t, hx, -⟩ := commandsCompleteOrFaultByTable i s hs
      obtain ⟨hcmd, hreset', hpc'⟩ := stream_of_exec hx
      refine .inr ⟨t, (step_of_fetch_command hreset hfault hf).trans hx, hcmd, hreset'.trans hreset, ?_⟩
      cases ht : t.faultBit with
      | true => exact .inl rfl
      | false => exact .inr (by have := i.size_pos; have := hpc' ht; omega)

/-- A run stays where it has ended. -/
theorem runFor_of_ended (k : Nat) {s : State} (h : s.Ended) : runFor k s = s := by
  cases k with
  | zero => rfl
  | succ k => rcases h with ⟨h, -⟩ | ⟨h, -⟩ | ⟨h, -⟩ <;> rw [runFor, h]

theorem runFor_succ_of_next {s t : State} (k : Nat) (h : step s = .next t) : runFor (k + 1) s = runFor k t := by
  rw [runFor, h]

/-- R196: a run ends within `k` steps when the block is halted or at most `k` bytes remain. -/
theorem ended_runFor {k : Nat} {s : State} (hs : s.Inv) (hreset : s.resetLine = false)
    (hk : s.faultBit = true ∨ s.cmd.length ≤ s.pc + k) : (runFor k s).cmd = s.cmd ∧ (runFor k s).Ended := by
  have stays : ∀ {k s}, State.Ended s → (runFor k s).cmd = s.cmd ∧ (runFor k s).Ended :=
    fun hend => by rw [runFor_of_ended _ hend]; exact ⟨rfl, hend⟩
  induction k generalizing s with
  | zero =>
    rcases hk with hfault | hk
    · exact stays (State.ended_of_halted hreset hfault)
    · exact stays (State.ended_of_exhausted hreset (hs.pc.antisymm hk))
  | succ k ih =>
    rcases hk with hfault | hk
    · exact stays (State.ended_of_halted hreset hfault)
    rcases ended_or_exists_step hs hreset with hend | ⟨t, hstep, hcmd, hreset', hprogress⟩
    · exact stays hend
    · rw [runFor_succ_of_next k hstep, ← hcmd]
      exact ih (stepKeepsInvariant s t hs hstep) hreset' (hprogress.imp_right fun hlt => by rw [hcmd]; omega)

/-! ### The start of a run -/

/-- R196: the start of a run meets the invariant. -/
theorem State.inv_boot (cmd : List Byte) {seg : SegSpace} {chunk : Nat} (hseg : seg.wf = true) (hchunk : 1 ≤ chunk) :
    (State.boot cmd seg chunk).Inv :=
  { State.inv_reset with pc := Nat.zero_le _, seg := hseg, chunk := hchunk }

/-- Settles O22: each step of the run consumes a byte or halts the block. -/
theorem everyRunEnds : Obligations.EveryRunEnds := by
  unfold Obligations.EveryRunEnds
  refine ⟨fun s hs hreset => ?_, fun cmd seg chunk hseg hchunk => ⟨State.inv_boot cmd hseg hchunk, rfl⟩⟩
  obtain ⟨hcmd, hend⟩ := ended_runFor (k := s.cmd.length - s.pc) hs hreset (.inr (by omega))
  rw [State.Ended, hcmd] at hend
  exact ⟨hcmd, hend⟩

end Sys2Proof.Machine
end
